-- ==== Sys2Proof/Word.lean ====
section
/-! DEFINITION. The machine's one data type, the 24-bit Word, its byte, and a raster coordinate
(spec/10_state.md R20, R21; spec/20_memory.md R51). The codec between them is in Machine/Codec.lean. -/

namespace Sys2Proof

/-- One of the three bytes of a Word (R20: "an unsigned 24-bit value stored as three bytes"). -/
abbrev Byte := BitVec 8

/-- The Word: every register, memory cell and stack entry holds exactly one (R20). Read as a Scalar it is its unsigned
value, read as an Address it is a pair of 12-bit coordinates (R21); it carries no tag. -/
abbrev Word := BitVec 24

/-- A raster coordinate: column `x`, row `y`. The components are unbounded naturals, because the raster successor of a
coordinate may have a component of 4096 that fits no Word (R120). -/
structure Coord where
  /-- column -/
  x : Nat
  /-- row -/
  y : Nat
  deriving DecidableEq, Repr

end Sys2Proof
end

