-- ==== Sys2Proof/Config.lean ====
section
/-! DEFINITION. What an implementation fixes (spec/00_scope.md R8, R10), and the two numbers of `State.reset` that the
spec leaves to the host of a run (log 1). The machine has no free value: no instruction has an undefined result. -/

namespace Sys2Proof.Config

/-- Greatest width and height of a grid (R8, R64, R69). -/
def maxDim : Nat := 4096

/-- Number of distinct opcodes, the modulus of the opcode reduction (R8, R83). -/
def opcodeCount : Nat := 27

/-- `INSTR_WORDS`: Words every instruction consumes (R10, R80; D8). -/
def instrWords : Nat := 1

/-- Width of `program` in `State.reset`. DESIGN CHOICE (log 1): unsafe. The host supplies `W` (R9); the model's one
reset state takes the whole coordinate space. -/
def resetWidth : Nat := 4096

/-- Height of `program` in `State.reset`. DESIGN CHOICE (log 1): unsafe. -/
def resetHeight : Nat := 4096

end Sys2Proof.Config
end

