-- ==== Sys2Proof/Machine/Codec.lean ====
section
/-! DEFINITION. The Word/Address codec and the byte order of a Word (spec/20_memory.md R51, R59), truncation
(spec/00_scope.md R12) and the raster successor (spec/40_cycle_and_operands.md R120). -/

namespace Sys2Proof.Machine

/-- `to_address(w) = (w[23:12], w[11:0])` (R51). -/
def toAddress (w : Word) : Coord := ⟨(w.extractLsb' 12 12).toNat, (w.extractLsb' 0 12).toNat⟩

/-- `from_address(x, y) = x ++ y` for `x, y < 4096` (R51). A component of 4096 or more is no coordinate of a Word; every
caller in the machine tests first (R121, R207), and Alloc reduces its row modulo 4096 as R190 says. -/
def fromAddress (c : Coord) : Word := BitVec.ofNat 12 c.x ++ BitVec.ofNat 12 c.y

/-- Both components fit a 12-bit coordinate (R121 line 3). -/
def representable (c : Coord) : Bool := decide (c.x ≤ 4095) && decide (c.y ≤ 4095)

/-- `trunc24(v) = v mod 2^24`, for a negative `v` too (R12). -/
def trunc24 (v : Int) : Word := BitVec.ofInt 24 v

/-- byte0 = w[23:16], the most significant byte (R11, R59; D1). -/
def byte0 (w : Word) : Byte := w.extractLsb' 16 8

/-- byte1 = w[15:8] (R11). -/
def byte1 (w : Word) : Byte := w.extractLsb' 8 8

/-- byte2 = w[7:0] (R11). -/
def byte2 (w : Word) : Byte := w.extractLsb' 0 8

/-- `w = byte0*65536 + byte1*256 + byte2` (R59). -/
def ofBytes (b0 b1 b2 : Byte) : Word := b0 ++ b1 ++ b2

/-- `next_pos`: the raster successor, on unbounded naturals, for a grid of width `width` (R120; D10: "reaches" is
equality). -/
def nextPos (width : Nat) (c : Coord) : Coord :=
  if c.x + 1 = width then ⟨0, c.y + 1⟩ else ⟨c.x + 1, c.y⟩

end Sys2Proof.Machine
end

