-- ==== Sys2Proof/Syntax.lean ====
section
/-! DEFINITION. The instructions, one constructor for each of the 27 of spec/30_encoding.md R84, in the order of that
list. The 64 rows of spec/opcode_table.json are these 27 and their aliases (R83). -/

namespace Sys2Proof

/-- A Register Operand: "a decoded reference to a register, carrying a dereference flag and a 5-bit index" (R16, R87).
The index is a plain number, so that the register file's own guard `index > 31` (R25) can be stated; a decoded operand
always has `idx < 32` (`Operand.wf`). -/
structure Operand where
  /-- denotes the `program` cell the register addresses, not the register (R115) -/
  deref : Bool
  /-- register index -/
  idx : Nat
  deriving DecidableEq, Repr

/-- The 27 instructions (R84); operand roles and order are those of R89. -/
inductive Instr where
  /-- LoadLow `r, #imm6` (R140) -/
  | loadLow (r : Operand) (imm : BitVec 6)
  /-- LoadHigh `r, #imm6` (R141) -/
  | loadHigh (r : Operand) (imm : BitVec 6)
  /-- Move `dst, src` (R150) -/
  | move (dst src : Operand)
  /-- Add `dst, a, b` (R160) -/
  | add (dst a b : Operand)
  /-- Subtract `dst, a, b` (R161) -/
  | subtract (dst a b : Operand)
  /-- Multiply `dst, a, b` (R162) -/
  | multiply (dst a b : Operand)
  /-- Divide `dst, a, b` (R163) -/
  | divide (dst a b : Operand)
  /-- Modulo `dst, a, b` (R164) -/
  | modulo (dst a b : Operand)
  /-- And `dst, a, b` (R165) -/
  | bitAnd (dst a b : Operand)
  /-- Or `dst, a, b` (R166) -/
  | bitOr (dst a b : Operand)
  /-- Equal `dst, a, b` (R167) -/
  | equal (dst a b : Operand)
  /-- NotEqual `dst, a, b` (R168) -/
  | notEqual (dst a b : Operand)
  /-- GreaterThan `dst, a, b` (R169) -/
  | greaterThan (dst a b : Operand)
  /-- LessThan `dst, a, b` (R170) -/
  | lessThan (dst a b : Operand)
  /-- GreaterThanEqual `dst, a, b` (R171) -/
  | greaterThanEqual (dst a b : Operand)
  /-- LessThanEqual `dst, a, b` (R172) -/
  | lessThanEqual (dst a b : Operand)
  /-- Alloc `size, dst` (R190) -/
  | alloc (size dst : Operand)
  /-- MemCopy `dst, src, len` (R191) -/
  | memCopy (dst src len : Operand)
  /-- CurrAddress `dst` (R192) -/
  | currAddress (dst : Operand)
  /-- Jump `target` (R200) -/
  | jump (target : Operand)
  /-- Call `target` (R201) -/
  | call (target : Operand)
  /-- JumpIf `cond, target` (R202) -/
  | jumpIf (cond target : Operand)
  /-- CallIf `cond, target` (R203) -/
  | callIf (cond target : Operand)
  /-- Return (R204) -/
  | ret
  /-- Push `r` (R220) -/
  | push (r : Operand)
  /-- Pop `r` (R221) -/
  | pop (r : Operand)
  /-- Halt (R205) -/
  | halt
  deriving DecidableEq, Repr

end Sys2Proof
end

