-- ==== Sys2Proof/WellFormed.lean ====
section
/-! DEFINITION. Well-formed instructions: every register index is one the 5-bit field can hold (spec/10_state.md R24,
spec/30_encoding.md R87). The 6-bit immediate needs no check: its type holds exactly 0..63 (R88). -/

namespace Sys2Proof

/-- "Register indices are always in 0–31 by construction (5-bit field)" (R24). -/
def Operand.wf (o : Operand) : Bool := decide (o.idx < 32)

/-- The operands of an instruction, in field order `A`, `B`, `C` (R89). -/
def Instr.operands : Instr → List Operand
  | .loadLow r _ => [r]
  | .loadHigh r _ => [r]
  | .move dst src => [dst, src]
  | .add dst a b => [dst, a, b]
  | .subtract dst a b => [dst, a, b]
  | .multiply dst a b => [dst, a, b]
  | .divide dst a b => [dst, a, b]
  | .modulo dst a b => [dst, a, b]
  | .bitAnd dst a b => [dst, a, b]
  | .bitOr dst a b => [dst, a, b]
  | .equal dst a b => [dst, a, b]
  | .notEqual dst a b => [dst, a, b]
  | .greaterThan dst a b => [dst, a, b]
  | .lessThan dst a b => [dst, a, b]
  | .greaterThanEqual dst a b => [dst, a, b]
  | .lessThanEqual dst a b => [dst, a, b]
  | .alloc size dst => [size, dst]
  | .memCopy dst src len => [dst, src, len]
  | .currAddress dst => [dst]
  | .jump target => [target]
  | .call target => [target]
  | .jumpIf cond target => [cond, target]
  | .callIf cond target => [cond, target]
  | .ret => []
  | .push r => [r]
  | .pop r => [r]
  | .halt => []

/-- An instruction is well formed when each of its operands is. Every decoded instruction is (R92). -/
def Instr.wf (i : Instr) : Bool := i.operands.all Operand.wf

end Sys2Proof
end

