-- ==== Sys2Proof/Decode.lean ====
section
/-! DEFINITION. The instruction decoder and, after it, the encoder, both written from spec/30_encoding.md. Decoding a Word
is total (R92, R112); decoding bytes fails only for want of three of them. -/

namespace Sys2Proof

/-- raw opcode = w[23:18] = `byte0 >> 2` (R82, R83). -/
def rawOpcode (w : Word) : BitVec 6 := w.extractLsb' 18 6

/-- Field A = w[17:12] (R82). -/
def fieldA (w : Word) : BitVec 6 := w.extractLsb' 12 6

/-- Field B = w[11:6] (R82), also the immediate `imm6` (R88). -/
def fieldB (w : Word) : BitVec 6 := w.extractLsb' 6 6

/-- Field C = w[5:0] (R82). -/
def fieldC (w : Word) : BitVec 6 := w.extractLsb' 0 6

/-- `reduced = raw mod 27` (R83). -/
def reducedOpcode (w : Word) : Nat := (rawOpcode w).toNat % Config.opcodeCount

/-- `operand(F) = (deref = F[5], idx = F[4:0])` (R87). -/
def operandOf (f : BitVec 6) : Operand := ⟨f.getLsbD 5, (f.extractLsb' 0 5).toNat⟩

/-- `decode : Word -> Instruction` (R95). The last arm is reduced 26, the only value left after the reduction (R92,
conflict C11). -/
def decodeWord (w : Word) : Instr :=
  let a := operandOf (fieldA w)
  let b := operandOf (fieldB w)
  let c := operandOf (fieldC w)
  match reducedOpcode w with
  | 0 => .loadLow a (fieldB w)
  | 1 => .loadHigh a (fieldB w)
  | 2 => .move a b
  | 3 => .add a b c
  | 4 => .subtract a b c
  | 5 => .multiply a b c
  | 6 => .divide a b c
  | 7 => .modulo a b c
  | 8 => .bitAnd a b c
  | 9 => .bitOr a b c
  | 10 => .equal a b c
  | 11 => .notEqual a b c
  | 12 => .greaterThan a b c
  | 13 => .lessThan a b c
  | 14 => .greaterThanEqual a b c
  | 15 => .lessThanEqual a b c
  | 16 => .alloc a b
  | 17 => .memCopy a b c
  | 18 => .currAddress a
  | 19 => .jump a
  | 20 => .call a
  | 21 => .jumpIf a b
  | 22 => .callIf a b
  | 23 => .ret
  | 24 => .push a
  | 25 => .pop a
  | _ => .halt

/-- Why a sequence of bytes is no instruction. -/
inductive DecodeError where
  /-- fewer than the three bytes of one Word are left -/
  | truncated
  deriving DecidableEq, Repr

/-- The decoder on stored bytes: one Word is three bytes, byte0 first (R20, R59), and every instruction is one Word (R80);
the rest of the bytes comes back unread. -/
def decodeBytes : List Byte → Except DecodeError (Instr × List Byte)
  | b0 :: b1 :: b2 :: rest => .ok (decodeWord (Machine.ofBytes b0 b1 b2), rest)
  | _ => .error .truncated

/-! ### The encoder -/

/-- An operand field: `F = deref*32 + idx` (R96). -/
def operandField (o : Operand) : BitVec 6 := BitVec.ofBool o.deref ++ BitVec.ofNat 5 o.idx

/-- `w = op*2^18 + A*2^12 + B*2^6 + C` (R82). -/
def packWord (op a b c : BitVec 6) : Word := op ++ a ++ b ++ c

/-- The reduced opcode of an instruction: its position in the ordered list of R84. -/
def Instr.opcode : Instr → Nat
  | .loadLow _ _ => 0
  | .loadHigh _ _ => 1
  | .move _ _ => 2
  | .add _ _ _ => 3
  | .subtract _ _ _ => 4
  | .multiply _ _ _ => 5
  | .divide _ _ _ => 6
  | .modulo _ _ _ => 7
  | .bitAnd _ _ _ => 8
  | .bitOr _ _ _ => 9
  | .equal _ _ _ => 10
  | .notEqual _ _ _ => 11
  | .greaterThan _ _ _ => 12
  | .lessThan _ _ _ => 13
  | .greaterThanEqual _ _ _ => 14
  | .lessThanEqual _ _ _ => 15
  | .alloc _ _ => 16
  | .memCopy _ _ _ => 17
  | .currAddress _ => 18
  | .jump _ => 19
  | .call _ => 20
  | .jumpIf _ _ => 21
  | .callIf _ _ => 22
  | .ret => 23
  | .push _ => 24
  | .pop _ => 25
  | .halt => 26

/-- The three fields of an instruction, those it does not use left to `free` (R89, R91): `free` is any Word, and its
bits stand in the unused fields. -/
def Instr.fields (i : Instr) (free : Word) : BitVec 6 × BitVec 6 × BitVec 6 :=
  match i with
  | .loadLow r imm => (operandField r, imm, fieldC free)
  | .loadHigh r imm => (operandField r, imm, fieldC free)
  | .move dst src => (operandField dst, operandField src, fieldC free)
  | .add dst a b => (operandField dst, operandField a, operandField b)
  | .subtract dst a b => (operandField dst, operandField a, operandField b)
  | .multiply dst a b => (operandField dst, operandField a, operandField b)
  | .divide dst a b => (operandField dst, operandField a, operandField b)
  | .modulo dst a b => (operandField dst, operandField a, operandField b)
  | .bitAnd dst a b => (operandField dst, operandField a, operandField b)
  | .bitOr dst a b => (operandField dst, operandField a, operandField b)
  | .equal dst a b => (operandField dst, operandField a, operandField b)
  | .notEqual dst a b => (operandField dst, operandField a, operandField b)
  | .greaterThan dst a b => (operandField dst, operandField a, operandField b)
  | .lessThan dst a b => (operandField dst, operandField a, operandField b)
  | .greaterThanEqual dst a b => (operandField dst, operandField a, operandField b)
  | .lessThanEqual dst a b => (operandField dst, operandField a, operandField b)
  | .alloc size dst => (operandField size, operandField dst, fieldC free)
  | .memCopy dst src len => (operandField dst, operandField src, operandField len)
  | .currAddress dst => (operandField dst, fieldB free, fieldC free)
  | .jump target => (operandField target, fieldB free, fieldC free)
  | .call target => (operandField target, fieldB free, fieldC free)
  | .jumpIf cond target => (operandField cond, operandField target, fieldC free)
  | .callIf cond target => (operandField cond, operandField target, fieldC free)
  | .ret => (fieldA free, fieldB free, fieldC free)
  | .push r => (operandField r, fieldB free, fieldC free)
  | .pop r => (operandField r, fieldB free, fieldC free)
  | .halt => (fieldA free, fieldB free, fieldC free)

/-- The Word of an instruction under the raw opcode `raw`, its unused fields taken from `free`. -/
def encodeAs (raw : BitVec 6) (free : Word) (i : Instr) : Word :=
  packWord raw (i.fields free).1 (i.fields free).2.1 (i.fields free).2.2

/-- The canonical encoding: raw opcode = reduced opcode, zero in every unused field (R96). -/
def encode (i : Instr) : Word := encodeAs (BitVec.ofNat 6 i.opcode) 0 i

/-- The stored bytes of an instruction: the one Word, byte0 at the lowest address (R59). -/
def encodeBytes (i : Instr) : List Byte :=
  [Machine.byte0 (encode i), Machine.byte1 (encode i), Machine.byte2 (encode i)]

/-! ### The host's view of the opcode table -/

/-- The Word the table numbers as `w` on `nbits` bits (`match` and `mask` of spec/opcode_table.json are the Word as one
24-bit number): bits at and above `nbits` are zero. -/
def tableWord (nbits w : Nat) : Word := BitVec.ofNat 24 (w % 2 ^ nbits)

/-- The instruction the decoder reads from an instruction whose bits are `w`, laid out as its three bytes. -/
def decodeTableWord (nbits w : Nat) : Option Instr :=
  let v := tableWord nbits w
  match decodeBytes [Machine.byte0 v, Machine.byte1 v, Machine.byte2 v] with
  | .ok (i, _) => some i
  | .error _ => none

end Sys2Proof
end

