-- ==== Sys2Proof/Machine/Flags.lean ====
section
/-! DEFINITION. The machine has no flags, no condition codes and no predicate registers (spec/10_state.md R30). What stands
in their place: the truth Word the comparisons write (spec/43_alu.md R176) and the test of the conditional transfers
(spec/45_control_flow.md R202). -/

namespace Sys2Proof.Machine

/-- The Word `0x000001` when the relation holds, else `0x000000` (R176). -/
def truthWord (b : Bool) : Word := if b then 1#24 else 0#24

/-- A condition Word is true when it is nonzero, any nonzero Word (R202). -/
def conditionHolds (w : Word) : Bool := w != 0#24

end Sys2Proof.Machine
end

