-- ==== Sys2Proof/Machine/State.lean ====
section
/-! DEFINITION. The machine's state as plain data (spec/10_state.md), its error kinds (spec/60_exceptions.md R230), the
reasons a step can stop, and the state after reset (R38). -/

namespace Sys2Proof.Machine

/-- The five error kinds, in the source's listing order (R230). -/
inductive ErrorKind where
  /-- "`program` or `input` exceeds 4096 in either dimension", the launch check, no instruction (R69, R232) -/
  | oversizedImage
  /-- a register index above 31, the register file's guard; no decoded instruction raises it (R25, R236) -/
  | invalidRegister
  /-- a coordinate outside the grid (R233) -/
  | addressOutOfBounds
  /-- Return or Pop on an empty stack (R234) -/
  | stackUnderflow
  /-- Divide or Modulo by zero (R235) -/
  | arithmeticFault
  deriving DecidableEq, Repr

/-- `run_state` (R33). No instruction reads it. -/
inductive RunState where
  /-- a step is taken -/
  | running
  /-- ended without error, by Halt or at the end of the raster (R127) -/
  | halted
  /-- ended by a fatal error (R231) -/
  | faulted (kind : ErrorKind)
  deriving DecidableEq, Repr

/-- The bytes of a grid: (address, byte) pairs in one canonical form (`Memory.wf`), addresses strictly rising and no
entry equal to what an unlisted address reads as (`unlistedByte`). Byte `k` of the Word with raster index `i` has
address `3*i + k` (log 4). -/
abbrev Memory := List Host.Cell

/-- Raster Memory: "a width×height grid (width, height ≤ 4096) of Words" (R50). -/
structure Grid where
  /-- number of columns -/
  width : Nat
  /-- number of rows -/
  height : Nat
  /-- the listed bytes -/
  cells : Memory
  deriving DecidableEq, Repr

/-- Everything the spec gives the machine (R34: the list is complete). Plain data. -/
structure State where
  /-- `x[0] .. x[31]`; register 31 is the instruction pointer, the same storage (R22, R26) -/
  regs : Vector Word 32
  /-- the Call/Return stack `S`, its top at the head of the list (R31; log 7) -/
  stack : List Word
  /-- `run_state` (R33) -/
  runState : RunState
  /-- `program`, code and data; its dimensions are the run parameters `W`, `H` (R36, R52) -/
  program : Grid
  /-- `input`, if the host supplied it; no instruction reads or writes it (R55; log 9) -/
  input : Option Grid
  /-- `output`; `output_present` is `output.isSome` (R35, R54; log 10) -/
  output : Option Grid
  /-- `alloc_next`, the next free address in `output`, as a raster index (R35) -/
  allocNext : Nat
  deriving DecidableEq, Repr

/-- Why a step does not happen. Only `step` answers one of these, never a meaning: a fatal error of an instruction is a
next state whose `runState` is `faulted` (R231; log 5). -/
inductive Fault where
  /-- raised by `step` in a Halted state: the run is over, "no step is taken from Halted" (R33, R114). Safe: the
  hardware takes no step either (log 6). -/
  | runHalted
  /-- raised by `step` in a Faulted state, with the one thing the host learns, the kind (R33, R231). Safe (log 6). -/
  | runFaulted (kind : ErrorKind)
  deriving DecidableEq, Repr

/-- Why an instruction has no meaning. -/
inductive Refusal where
  /-- raised by an arm of `exec` whose instruction has no meaning yet. Safe: the model stops where the hardware goes on.
  In this package no arm raises it: every instruction has its meaning. -/
  | notModelled (mnemonic : String)
  deriving DecidableEq, Repr

/-- VM start (R38, R260): registers zero, hence the IP at (0,0); stack empty; Running; `output` absent; `alloc_next` 0.
The host supplies `program` and `input` (R9, R263). DESIGN CHOICE (log 1), unsafe: this one state takes the largest
grid, nothing listed, and no `input`; `launch` gives the reset state of any grid. -/
def State.reset : State where
  regs := Vector.replicate 32 0#24
  stack := []
  runState := .running
  program := ⟨Config.resetWidth, Config.resetHeight, []⟩
  input := none
  output := none
  allocNext := 0

end Sys2Proof.Machine
end

