-- ==== Sys2Proof/Machine/Ops.lean ====
section
/-! DEFINITION. The named operations over memory, grids, registers and the stack (spec/20_memory.md, spec/10_state.md),
raising a fatal error (spec/60_exceptions.md R231), the raster advance and control transfer
(spec/40_cycle_and_operands.md R119 to R123) and the instruction fetch (R111). There is no exception return to model: "No
instruction returns from a fatal error" (R241). -/

namespace Sys2Proof.Machine

/-! ### Bytes -/

/-- What an unlisted byte of a grid reads as. DESIGN CHOICE (log 2), unsafe: the host supplies every Word of `program`
(R9, R264 `program_total`); a byte this state does not list is 0. For `output` it is the spec's own value:
"zero-filled" (R54). -/
def unlistedByte : Byte := 0#8

/-- Reads one byte. -/
def memRead : Memory → Nat → Byte
  | [], _ => unlistedByte
  | (k, v) :: rest, a => if k = a then v else memRead rest a

/-- Removes the entry of an address. -/
def memErase (m : Memory) (a : Nat) : Memory := m.filter fun c => c.1 != a

/-- Inserts an entry before the first greater address. -/
def memInsert : Memory → Nat → Byte → Memory
  | [], a, b => [(a, b)]
  | (k, v) :: rest, a, b => if a < k then (a, b) :: (k, v) :: rest else (k, v) :: memInsert rest a b

/-- Writes one byte, keeping the canonical form: writing the unlisted value removes the entry. -/
def memWrite (m : Memory) (a : Nat) (b : Byte) : Memory :=
  if b = unlistedByte then memErase m a else memInsert (memErase m a) a b

/-- The canonical form: addresses strictly rising, no entry equal to `unlistedByte`. -/
def Memory.wf : Memory → Bool
  | [] => true
  | c :: rest => (c.2 != unlistedByte) && rest.all (fun d => decide (c.1 < d.1)) && Memory.wf rest

/-! ### Words of a grid -/

/-- The Word with raster index `i`: three bytes, byte0 at the lowest address (R59). -/
def readWordAt (m : Memory) (i : Nat) : Word :=
  ofBytes (memRead m (3 * i)) (memRead m (3 * i + 1)) (memRead m (3 * i + 2))

/-- Replaces the whole 24-bit Word with raster index `i` (R57: no partial-word write). -/
def writeWordAt (m : Memory) (i : Nat) (w : Word) : Memory :=
  memWrite (memWrite (memWrite m (3 * i) (byte0 w)) (3 * i + 1) (byte1 w)) (3 * i + 2) (byte2 w)

/-- `in_bounds(x, y) = x < W and y < H` (R53). -/
def Grid.inBounds (g : Grid) (c : Coord) : Bool := decide (c.x < g.width) && decide (c.y < g.height)

/-- The raster index `y*W + x` (R35, R263). -/
def Grid.index (g : Grid) (c : Coord) : Nat := c.y * g.width + c.x

/-- `P[x, y]`, the Word of the grid at a coordinate (R52). -/
def Grid.cell (g : Grid) (c : Coord) : Word := readWordAt g.cells (g.index c)

/-- `P[x, y] <- v`. -/
def Grid.setCell (g : Grid) (c : Coord) (v : Word) : Grid := { g with cells := writeWordAt g.cells (g.index c) v }

/-- `get_checked(x, y) -> Option<Word>`, the probe of fetch (R58). -/
def Grid.getChecked (g : Grid) (c : Coord) : Option Word := if g.inBounds c then some (g.cell c) else none

/-- `get(x, y)`: fails when out of bounds (R56). -/
def Grid.get (g : Grid) (c : Coord) : Except ErrorKind Word :=
  if g.inBounds c then .ok (g.cell c) else .error .addressOutOfBounds

/-- `set(x, y, word)`: fails when out of bounds (R57). -/
def Grid.set (g : Grid) (c : Coord) (v : Word) : Except ErrorKind Grid :=
  if g.inBounds c then .ok (g.setCell c v) else .error .addressOutOfBounds

/-- A grid of the given dimensions with every Word zero: `output` when it is materialized (R54), a fresh grid at launch. -/
def Grid.zero (width height : Nat) : Grid := ⟨width, height, []⟩

/-! ### Registers -/

/-- `x[i]` for `i < 32`. -/
def State.reg (s : State) (i : Nat) : Word := (s.regs[i]?).getD 0#24

/-- `x[i] <- v` for `i < 32`: all 24 bits (R22). -/
def State.setReg (s : State) (i : Nat) (v : Word) : State := { s with regs := s.regs.setIfInBounds i v }

/-- `read(index) -> Word`: fails with InvalidRegister when `index > 31` (R22, R25). -/
def State.readReg (s : State) (i : Nat) : Except ErrorKind Word :=
  if i ≤ 31 then .ok (s.reg i) else .error .invalidRegister

/-- `write(index, word)`: fails with InvalidRegister when `index > 31` (R22, R25). -/
def State.writeReg (s : State) (i : Nat) (v : Word) : Except ErrorKind State :=
  if i ≤ 31 then .ok (s.setReg i v) else .error .invalidRegister

/-- `pc`, another name for `x[31]` (R26). -/
def State.pc (s : State) : Word := s.reg 31

/-- `read_ip()` (R26). -/
def State.ip (s : State) : Coord := toAddress s.pc

/-! ### Memory accesses of a running instruction -/

/-- `MemRead(a, 1)` (R56). -/
def State.memRead1 (s : State) (a : Word) : Except ErrorKind Word := s.program.get (toAddress a)

/-- `MemWrite(a, 1, v)` (R57). -/
def State.memWrite1 (s : State) (a v : Word) : Except ErrorKind State :=
  match s.program.set (toAddress a) v with
  | .ok g => .ok { s with program := g }
  | .error e => .error e

/-! ### The Call/Return stack -/

/-- `push(v)`: never fails (R31, R32). -/
def State.push (s : State) (v : Word) : State := { s with stack := v :: s.stack }

/-- `pop()`: the last Word pushed, or StackUnderflow (R31, R234). -/
def State.pop (s : State) : Except ErrorKind (Word × State) :=
  match s.stack with
  | [] => .error .stackUnderflow
  | v :: rest => .ok (v, { s with stack := rest })

/-! ### Ending a run, the advance, control transfer -/

/-- `halt`: `run_state <- Halted` (R33). -/
def State.halt (s : State) : State := { s with runState := .halted }

/-- `raise K`: `run_state <- Faulted(K)`, nothing else (R231). It saves nothing, vectors nowhere and changes no mode
(R240). What the instruction wrote before it raised stays in the state, as its pseudocode orders it (R238; log 5). -/
def State.raise (s : State) (k : ErrorKind) : State := { s with runState := .faulted k }

/-- Goes on with the value of an operation that may fail, or raises its error at state `s`. -/
def State.orRaise {α : Type} (s : State) (r : Except ErrorKind α) (k : α → State) : State :=
  match r with
  | .ok a => k a
  | .error e => s.raise e

/-- `pc <- t`: all 24 bits, no advance (R123). -/
def State.redirect (s : State) (t : Word) : State := s.setReg 31 t

/-- The raster advance of `x[31]` as it stands after the effect (R119, R121; D10): the successor, or Halted where the
successor fits no Word. -/
def State.advance (s : State) : State :=
  let c := nextPos s.program.width s.ip
  if representable c then s.setReg 31 (fromAddress c) else s.halt

/-! ### Fetch -/

/-- Instruction fetch: the Word at the IP, or none where the IP is outside `program` (R58, R111). -/
def State.fetch (s : State) : Option Word := s.program.getChecked s.ip

end Sys2Proof.Machine
end

