-- ==== Sys2Proof/Machine/Operands.lean ====
section
/-! DEFINITION. The memory address resolver: reading and writing a Register Operand, direct or dereferenced
(spec/40_cycle_and_operands.md R115 to R118), and the target check of the transfers (spec/45_control_flow.md R206). -/

namespace Sys2Proof.Machine

/-- `rd(o)` (R116): the register, or the `program` cell it addresses. -/
def State.rd (s : State) (o : Operand) : Except ErrorKind Word :=
  match s.readReg o.idx with
  | .error e => .error e
  | .ok w => if o.deref then s.memRead1 w else .ok w

/-- `wr(o, v)` (R117): the register, or the `program` cell it addresses. -/
def State.wr (s : State) (o : Operand) (v : Word) : Except ErrorKind State :=
  if o.deref then
    match s.readReg o.idx with
    | .error e => .error e
    | .ok w => s.memWrite1 w v
  else s.writeReg o.idx v

/-- The end of every instruction with a destination: `wr(o, v); advance`. -/
def State.wrAdvance (s : State) (o : Operand) (v : Word) : State := s.orRaise (s.wr o v) State.advance

/-- The resolved Word of a transfer's target, which must be in bounds (R206): `t = rd(o); if not in_bounds(to_address(t))
raise AddressOutOfBounds`. -/
def State.target (s : State) (o : Operand) : Except ErrorKind Word :=
  match s.rd o with
  | .error e => .error e
  | .ok t => if s.program.inBounds (toAddress t) then .ok t else .error .addressOutOfBounds

end Sys2Proof.Machine
end

