-- ==== Sys2Proof/Machine/Alu.lean ====
section
/-! DEFINITION. The thirteen ALU instructions (spec/43_alu.md): one skeleton (R173), thirteen functions of two unsigned
Scalars (R160 to R172). Results are computed exactly over the integers and reduced modulo 2^24 (R174). -/

namespace Sys2Proof.Machine

/-- The skeleton of R173: read `a`, read `b`, compute (where Divide and Modulo may raise), write `dst`, advance. -/
def State.alu (s : State) (f : Word → Word → Except ErrorKind Word) (dst a b : Operand) : State :=
  s.orRaise (s.rd a) fun va => s.orRaise (s.rd b) fun vb => s.orRaise (f va vb) fun v => s.wrAdvance dst v

/-- `(va + vb) mod 2^24` (R160). -/
def addFn (va vb : Word) : Except ErrorKind Word := .ok (trunc24 ((va.toNat : Int) + vb.toNat))

/-- `(va - vb) mod 2^24` (R161; D19). -/
def subtractFn (va vb : Word) : Except ErrorKind Word := .ok (trunc24 ((va.toNat : Int) - vb.toNat))

/-- `(va * vb) mod 2^24`, the low 24 bits of the product (R162; D19). -/
def multiplyFn (va vb : Word) : Except ErrorKind Word := .ok (trunc24 ((va.toNat : Int) * vb.toNat))

/-- `va div vb`, or ArithmeticFault when `vb = 0` (R163, R175, R235). -/
def divideFn (va vb : Word) : Except ErrorKind Word :=
  if vb = 0#24 then .error .arithmeticFault else .ok (trunc24 ((va.toNat / vb.toNat : Nat) : Int))

/-- `va mod vb`, or ArithmeticFault when `vb = 0` (R164, R175, R235). -/
def moduloFn (va vb : Word) : Except ErrorKind Word :=
  if vb = 0#24 then .error .arithmeticFault else .ok (trunc24 ((va.toNat % vb.toNat : Nat) : Int))

/-- Bitwise AND (R165). -/
def andFn (va vb : Word) : Except ErrorKind Word := .ok (va &&& vb)

/-- Bitwise inclusive OR (R166). -/
def orFn (va vb : Word) : Except ErrorKind Word := .ok (va ||| vb)

/-- `1 if va = vb else 0` (R167). -/
def equalFn (va vb : Word) : Except ErrorKind Word := .ok (truthWord (decide (va.toNat = vb.toNat)))

/-- `1 if va != vb else 0` (R168). -/
def notEqualFn (va vb : Word) : Except ErrorKind Word := .ok (truthWord (decide (va.toNat ≠ vb.toNat)))

/-- `1 if va > vb else 0`, unsigned (R169; D19). -/
def greaterThanFn (va vb : Word) : Except ErrorKind Word := .ok (truthWord (decide (va.toNat > vb.toNat)))

/-- `1 if va < vb else 0`, unsigned (R170; D19). -/
def lessThanFn (va vb : Word) : Except ErrorKind Word := .ok (truthWord (decide (va.toNat < vb.toNat)))

/-- `1 if va >= vb else 0`, unsigned (R171; D19). -/
def greaterThanEqualFn (va vb : Word) : Except ErrorKind Word := .ok (truthWord (decide (va.toNat ≥ vb.toNat)))

/-- `1 if va <= vb else 0`, unsigned (R172; D19). -/
def lessThanEqualFn (va vb : Word) : Except ErrorKind Word := .ok (truthWord (decide (va.toNat ≤ vb.toNat)))

/-- Add `dst, a, b` (R160). -/
def execAdd (dst a b : Operand) (s : State) : Host.Outcome State Fault Refusal := .next (s.alu addFn dst a b)

/-- Subtract `dst, a, b` (R161). -/
def execSubtract (dst a b : Operand) (s : State) : Host.Outcome State Fault Refusal := .next (s.alu subtractFn dst a b)

/-- Multiply `dst, a, b` (R162). -/
def execMultiply (dst a b : Operand) (s : State) : Host.Outcome State Fault Refusal := .next (s.alu multiplyFn dst a b)

/-- Divide `dst, a, b` (R163). -/
def execDivide (dst a b : Operand) (s : State) : Host.Outcome State Fault Refusal := .next (s.alu divideFn dst a b)

/-- Modulo `dst, a, b` (R164). -/
def execModulo (dst a b : Operand) (s : State) : Host.Outcome State Fault Refusal := .next (s.alu moduloFn dst a b)

/-- And `dst, a, b` (R165). -/
def execAnd (dst a b : Operand) (s : State) : Host.Outcome State Fault Refusal := .next (s.alu andFn dst a b)

/-- Or `dst, a, b` (R166). -/
def execOr (dst a b : Operand) (s : State) : Host.Outcome State Fault Refusal := .next (s.alu orFn dst a b)

/-- Equal `dst, a, b` (R167). -/
def execEqual (dst a b : Operand) (s : State) : Host.Outcome State Fault Refusal := .next (s.alu equalFn dst a b)

/-- NotEqual `dst, a, b` (R168). -/
def execNotEqual (dst a b : Operand) (s : State) : Host.Outcome State Fault Refusal := .next (s.alu notEqualFn dst a b)

/-- GreaterThan `dst, a, b` (R169). -/
def execGreaterThan (dst a b : Operand) (s : State) : Host.Outcome State Fault Refusal :=
  .next (s.alu greaterThanFn dst a b)

/-- LessThan `dst, a, b` (R170). -/
def execLessThan (dst a b : Operand) (s : State) : Host.Outcome State Fault Refusal := .next (s.alu lessThanFn dst a b)

/-- GreaterThanEqual `dst, a, b` (R171). -/
def execGreaterThanEqual (dst a b : Operand) (s : State) : Host.Outcome State Fault Refusal :=
  .next (s.alu greaterThanEqualFn dst a b)

/-- LessThanEqual `dst, a, b` (R172). -/
def execLessThanEqual (dst a b : Operand) (s : State) : Host.Outcome State Fault Refusal :=
  .next (s.alu lessThanEqualFn dst a b)

end Sys2Proof.Machine
end

