-- ==== Sys2Proof/Machine/ControlFlow.lean ====
section
/-! DEFINITION. Jump, Call, JumpIf, CallIf, Return and Halt (spec/45_control_flow.md). -/

namespace Sys2Proof.Machine

/-- A checked transfer (R200, R206). -/
def State.jumpTo (s : State) (target : Operand) : State := s.orRaise (s.target target) s.redirect

/-- The successor a Call pushes: the raster successor of its own coordinate, as a Word, or AddressOutOfBounds when its row
does not fit 12 bits (R201, R207; D15). -/
def State.returnAddress (s : State) : Except ErrorKind Word :=
  let c := nextPos s.program.width s.ip
  if c.y > 4095 then .error .addressOutOfBounds else .ok (fromAddress c)

/-- Resolve the target, push the successor, transfer (R201). -/
def State.callTo (s : State) (target : Operand) : State :=
  s.orRaise (s.target target) fun t => s.orRaise s.returnAddress fun r => (s.push r).redirect t

/-- Jump `target` (R200). -/
def execJump (target : Operand) (s : State) : Host.Outcome State Fault Refusal := .next (s.jumpTo target)

/-- Call `target` (R201). -/
def execCall (target : Operand) (s : State) : Host.Outcome State Fault Refusal := .next (s.callTo target)

/-- JumpIf `cond, target` (R202): the target is not resolved when not taken (D13). -/
def execJumpIf (cond target : Operand) (s : State) : Host.Outcome State Fault Refusal :=
  .next (s.orRaise (s.rd cond) fun c => if conditionHolds c then s.jumpTo target else s.advance)

/-- CallIf `cond, target` (R203): when not taken nothing is pushed and the target is not resolved (D13). -/
def execCallIf (cond target : Operand) (s : State) : Host.Outcome State Fault Refusal :=
  .next (s.orRaise (s.rd cond) fun c => if conditionHolds c then s.callTo target else s.advance)

/-- Return (R204): no bounds check (D14). -/
def execReturn (s : State) : Host.Outcome State Fault Refusal := .next (s.orRaise s.pop fun p => p.2.redirect p.1)

/-- Halt (R205): no advance, nothing else changes. -/
def execHalt (s : State) : Host.Outcome State Fault Refusal := .next s.halt

end Sys2Proof.Machine
end

