-- ==== Sys2Proof/Machine/LoadImmediate.lean ====
section
/-! DEFINITION. LoadLow and LoadHigh (spec/41_load_immediate.md). -/

namespace Sys2Proof.Machine

/-- `old[23:12] ++ zext_12(imm6)` (R140; D5, D6). -/
def withLow (old : Word) (imm : BitVec 6) : Word := old.extractLsb' 12 12 ++ imm.setWidth 12

/-- `zext_12(imm6) ++ old[11:0]` (R141; D5, D6). -/
def withHigh (old : Word) (imm : BitVec 6) : Word := imm.setWidth 12 ++ old.extractLsb' 0 12

/-- LoadLow `r, #imm6` (R140). -/
def execLoadLow (r : Operand) (imm : BitVec 6) (s : State) : Host.Outcome State Fault Refusal :=
  .next (s.orRaise (s.rd r) fun old => s.wrAdvance r (withLow old imm))

/-- LoadHigh `r, #imm6` (R141). -/
def execLoadHigh (r : Operand) (imm : BitVec 6) (s : State) : Host.Outcome State Fault Refusal :=
  .next (s.orRaise (s.rd r) fun old => s.wrAdvance r (withHigh old imm))

end Sys2Proof.Machine
end

