-- ==== Sys2Proof/Machine/MemoryOps.lean ====
section
/-! DEFINITION. Alloc, MemCopy and CurrAddress (spec/44_memory_ops.md). -/

namespace Sys2Proof.Machine

/-- `output_present <- true; output <- CAP Words, all 0x000000`, unless it is already present (R54, R190). -/
def State.materialize (s : State) : State :=
  match s.output with
  | some _ => s
  | none => { s with output := some (Grid.zero s.program.width s.program.height) }

/-- `CAP = OUT_W*OUT_H` with `OUT_W = W`, `OUT_H = H` (R10, R190; D18). -/
def State.outputCap (s : State) : Nat := s.program.width * s.program.height

/-- `from_address(alloc_next mod OUT_W, (alloc_next div OUT_W) mod 4096)`: the Address of the next free raster index
(R190; D18). -/
def State.allocBase (s : State) : Word :=
  fromAddress ⟨s.allocNext % s.program.width, (s.allocNext / s.program.width) % 4096⟩

/-- The part of Alloc after the size is known (R190): materialize, check the fit, take the base, reserve, write. -/
def State.allocate (s : State) (n : Nat) (dst : Operand) : State :=
  if s.allocNext + n > s.outputCap then s.materialize.raise .addressOutOfBounds
  else State.wrAdvance { s.materialize with allocNext := s.allocNext + n } dst s.allocBase

/-- Alloc `size, dst` (R190; the operand fields are D4). -/
def execAlloc (size dst : Operand) (s : State) : Host.Outcome State Fault Refusal :=
  .next (s.orRaise (s.rd size) fun n => s.allocate n.toNat dst)

/-- The loop of MemCopy (R191): `n` Words, ascending in raster order, one at a time, the source cell checked before the
destination cell. It answers the grid with the Words copied so far and the error that ended it, if any. -/
def copyWords : Nat → Coord → Coord → Grid → Grid × Option ErrorKind
  | 0, _, _, g => (g, none)
  | n + 1, src, dst, g =>
    match g.get src with
    | .error e => (g, some e)
    | .ok w =>
      match g.set dst w with
      | .error e => (g, some e)
      | .ok g' => copyWords n (nextPos g.width src) (nextPos g.width dst) g'

/-- The part of MemCopy after its operands are read (R191). -/
def State.copyAdvance (s : State) (dst src : Coord) (n : Nat) : State :=
  match copyWords n src dst s.program with
  | (g, none) => State.advance { s with program := g }
  | (g, some e) => State.raise { s with program := g } e

/-- MemCopy `dst, src, len` (R191; D17): the operands are read in field order. -/
def execMemCopy (dst src len : Operand) (s : State) : Host.Outcome State Fault Refusal :=
  .next (s.orRaise (s.rd dst) fun dw => s.orRaise (s.rd src) fun sw => s.orRaise (s.rd len) fun n =>
    s.copyAdvance (toAddress dw) (toAddress sw) n.toNat)

/-- CurrAddress `dst` (R192): `x[31]` before the advance. -/
def execCurrAddress (dst : Operand) (s : State) : Host.Outcome State Fault Refusal := .next (s.wrAdvance dst s.pc)

end Sys2Proof.Machine
end

