-- ==== Sys2Proof/Machine/Move.lean ====
section
/-! DEFINITION. Move, the only register copy, load and store (spec/42_move.md). -/

namespace Sys2Proof.Machine

/-- Move `dst, src` (R150): the source is read first. -/
def execMove (dst src : Operand) (s : State) : Host.Outcome State Fault Refusal :=
  .next (s.orRaise (s.rd src) fun v => s.wrAdvance dst v)

end Sys2Proof.Machine
end

