-- ==== Sys2Proof/Machine/StackOps.lean ====
section
/-! DEFINITION. Push and Pop, on the same stack as Call and Return (spec/46_stack.md). -/

namespace Sys2Proof.Machine

/-- Push `r` (R220). -/
def execPush (r : Operand) (s : State) : Host.Outcome State Fault Refusal :=
  .next (s.orRaise (s.rd r) fun v => (s.push v).advance)

/-- Pop `r` (R221): the pop comes before the write (D12). -/
def execPop (r : Operand) (s : State) : Host.Outcome State Fault Refusal :=
  .next (s.orRaise s.pop fun p => p.2.wrAdvance r p.1)

end Sys2Proof.Machine
end

