-- ==== Sys2Proof/Machine/Dispatch.lean ====
section
/-! DEFINITION. The dispatch: one arm for each instruction of spec/30_encoding.md R84, each one call of its meaning. -/

namespace Sys2Proof.Machine

/-- The effect of one instruction, the advance of R119 included (R113). -/
def exec (i : Instr) (s : State) : Host.Outcome State Fault Refusal :=
  match i with
  | .loadLow r imm => Sys2Proof.Machine.execLoadLow r imm s
  | .loadHigh r imm => Sys2Proof.Machine.execLoadHigh r imm s
  | .move dst src => Sys2Proof.Machine.execMove dst src s
  | .add dst a b => Sys2Proof.Machine.execAdd dst a b s
  | .subtract dst a b => Sys2Proof.Machine.execSubtract dst a b s
  | .multiply dst a b => Sys2Proof.Machine.execMultiply dst a b s
  | .divide dst a b => Sys2Proof.Machine.execDivide dst a b s
  | .modulo dst a b => Sys2Proof.Machine.execModulo dst a b s
  | .bitAnd dst a b => Sys2Proof.Machine.execAnd dst a b s
  | .bitOr dst a b => Sys2Proof.Machine.execOr dst a b s
  | .equal dst a b => Sys2Proof.Machine.execEqual dst a b s
  | .notEqual dst a b => Sys2Proof.Machine.execNotEqual dst a b s
  | .greaterThan dst a b => Sys2Proof.Machine.execGreaterThan dst a b s
  | .lessThan dst a b => Sys2Proof.Machine.execLessThan dst a b s
  | .greaterThanEqual dst a b => Sys2Proof.Machine.execGreaterThanEqual dst a b s
  | .lessThanEqual dst a b => Sys2Proof.Machine.execLessThanEqual dst a b s
  | .alloc size dst => Sys2Proof.Machine.execAlloc size dst s
  | .memCopy dst src len => Sys2Proof.Machine.execMemCopy dst src len s
  | .currAddress dst => Sys2Proof.Machine.execCurrAddress dst s
  | .jump target => Sys2Proof.Machine.execJump target s
  | .call target => Sys2Proof.Machine.execCall target s
  | .jumpIf cond target => Sys2Proof.Machine.execJumpIf cond target s
  | .callIf cond target => Sys2Proof.Machine.execCallIf cond target s
  | .ret => Sys2Proof.Machine.execReturn s
  | .push r => Sys2Proof.Machine.execPush r s
  | .pop r => Sys2Proof.Machine.execPop r s
  | .halt => Sys2Proof.Machine.execHalt s

end Sys2Proof.Machine
end

