-- ==== Sys2Proof/Machine/Step.lean ====
section
/-! DEFINITION. One step of the machine (spec/40_cycle_and_operands.md R110) and the host's way to place an instruction
where the next step fetches. -/

namespace Sys2Proof.Machine

/-- One step (R110): fetch, decode, execute; the advance is part of each instruction's meaning. A fetch outside `program`
is the normal end of a run (R111). No step is taken from Halted or Faulted (R33): there the answer is a named fault
(log 6). -/
def step (s : State) : Host.Outcome State Fault Refusal :=
  match s.runState with
  | .halted => .fault .runHalted
  | .faulted k => .fault (.runFaulted k)
  | .running =>
    match s.fetch with
    | none => .next s.halt
    | some w => exec (decodeWord w) s

/-- `s` with the instruction of the table's bits `w` stored in the cell the next step fetches (log 3). The fetch needs the
run to be going and the IP in bounds: a stopped run is set Running, and an IP outside `program` is moved to (0,0). -/
def State.withFetchWord (s : State) (nbits w : Nat) : State :=
  let t := if s.program.inBounds s.ip then s else s.setReg 31 0
  { t with runState := .running, program := t.program.setCell t.ip (tableWord nbits w) }

end Sys2Proof.Machine
end

