-- ==== Sys2Proof/Machine/Launch.lean ====
section
/-! DEFINITION. The host's side of a run at the level the spec gives it (spec/70_reset_and_hazards.md R263 to R266,
spec/20_memory.md R69): the launch check, the reset state of any supplied image, and what the host receives at the end. -/

namespace Sys2Proof.Machine

/-- A grid as the host supplies and receives it: its Words in raster order (R263, row-major). -/
structure Buffer where
  /-- number of columns -/
  width : Nat
  /-- number of rows -/
  height : Nat
  /-- the Words, `index = y*width + x` -/
  words : List Word
  deriving DecidableEq, Repr

/-- Why a run is not started. -/
inductive LaunchError where
  /-- `OversizedImage`, the one error kind of the launch (R69, R232) -/
  | fatal (kind : ErrorKind)
  /-- a dimension is zero: no error kind is assigned, "the host does not start a run that violates it" (R69, D25, U14) -/
  | zeroDimension
  /-- the buffer has not exactly `W*H` Words (R264 `program_total`, U14) -/
  | wrongLength
  deriving DecidableEq, Repr

/-- "exceeds 4096 in either dimension" (R69). -/
def Buffer.oversized (b : Buffer) : Bool := decide (b.width > Config.maxDim) || decide (b.height > Config.maxDim)

/-- `width, height` both > 0 (R263). -/
def Buffer.nonzero (b : Buffer) : Bool := decide (1 ≤ b.width) && decide (1 ≤ b.height)

/-- The buffer has one Word for each coordinate (R264). -/
def Buffer.total (b : Buffer) : Bool := b.words.length == b.width * b.height

/-- Writes the Words of a list at consecutive raster indices from `i`. -/
def fillWords (m : Memory) (i : Nat) : List Word → Memory
  | [] => m
  | w :: ws => fillWords (writeWordAt m i w) (i + 1) ws

/-- The grid of a buffer. -/
def Buffer.grid (b : Buffer) : Grid := ⟨b.width, b.height, fillWords [] 0 b.words⟩

/-- The buffer of a grid, as it is handed back (R265). -/
def Grid.buffer (g : Grid) : Buffer := ⟨g.width, g.height, (List.range (g.width * g.height)).map (readWordAt g.cells)⟩

/-- Launch (R263, R264, R69): the checks of every supplied buffer, oversized first (log 12), then the reset values of R38
with the host's grids. -/
def launch (program : Buffer) (input : Option Buffer) : Except LaunchError State :=
  let supplied := program :: input.toList
  if supplied.any Buffer.oversized then .error (.fatal .oversizedImage)
  else if supplied.any (fun b => !b.nonzero) then .error .zeroDimension
  else if supplied.any (fun b => !b.total) then .error .wrongLength
  else .ok { State.reset with program := program.grid, input := input.map Buffer.grid }

/-- What the host receives (R265). -/
inductive RunResult where
  /-- Halted: the possibly mutated `program`, and `output` if present -/
  | halted (program : Buffer) (output : Option Buffer)
  /-- Faulted: the error kind and nothing else (R231) -/
  | faulted (kind : ErrorKind)
  /-- `STEP_BOUND` was reached: "did not finish", neither Halted nor Faulted (D28, U15; log 14) -/
  | didNotFinish
  deriving DecidableEq, Repr

/-- A run of at most `fuel` steps, and what the host receives of it (R127, R265, R266; D28). A step of a Running machine
always answers a next state, so the last two arms stand for no run. -/
def runFor : Nat → State → RunResult
  | fuel, s =>
    match s.runState with
    | .halted => .halted s.program.buffer (s.output.map Grid.buffer)
    | .faulted k => .faulted k
    | .running =>
      match fuel with
      | 0 => .didNotFinish
      | n + 1 =>
        match step s with
        | .next t => runFor n t
        | .fault _ => .didNotFinish
        | .refused _ => .didNotFinish

end Sys2Proof.Machine
end

