-- ==== Sys2Proof/Safety.lean ====
section
/-! DEFINITION. The terms the claims use: the invariant every run keeps, when an operand resolves and to what, where an
instruction stores, and how an outcome is mapped. -/

namespace Sys2Proof

/-- The destination operand an instruction writes with `wr` (R24): none for MemCopy, which stores a range, and for the
instructions that write no operand. -/
def Instr.dest : Instr → Option Operand
  | .loadLow r _ => some r
  | .loadHigh r _ => some r
  | .move dst _ => some dst
  | .add dst _ _ => some dst
  | .subtract dst _ _ => some dst
  | .multiply dst _ _ => some dst
  | .divide dst _ _ => some dst
  | .modulo dst _ _ => some dst
  | .bitAnd dst _ _ => some dst
  | .bitOr dst _ _ => some dst
  | .equal dst _ _ => some dst
  | .notEqual dst _ _ => some dst
  | .greaterThan dst _ _ => some dst
  | .lessThan dst _ _ => some dst
  | .greaterThanEqual dst _ _ => some dst
  | .lessThanEqual dst _ _ => some dst
  | .alloc _ dst => some dst
  | .memCopy _ _ _ => none
  | .currAddress dst => some dst
  | .jump _ => none
  | .call _ => none
  | .jumpIf _ _ => none
  | .callIf _ _ => none
  | .ret => none
  | .push _ => none
  | .pop r => some r
  | .halt => none

/-- The instruction may set the IP as a control transfer (R24): Jump, Call, JumpIf, CallIf, Return. -/
def Instr.transfers : Instr → Bool
  | .jump _ => true
  | .call _ => true
  | .jumpIf _ _ => true
  | .callIf _ _ => true
  | .ret => true
  | _ => false

namespace Machine

/-- A grid of a run: dimensions 1..4096 (R52, R69), bytes in canonical form, none outside the grid (R62). -/
def Grid.wf (g : Grid) : Bool :=
  decide (1 ≤ g.width) && decide (g.width ≤ Config.maxDim) && decide (1 ≤ g.height) && decide (g.height ≤ Config.maxDim) &&
    Memory.wf g.cells && g.cells.all (fun c => decide (c.1 < 3 * (g.width * g.height)))

/-- `output` and `alloc_next` (R35, R54): absent with nothing reserved, or present with the dimensions of `program`, every
Word zero, and `alloc_next` at most the number of its cells. -/
def State.outputWf (s : State) : Bool :=
  match s.output with
  | none => s.allocNext == 0
  | some g => g == Grid.zero s.program.width s.program.height && decide (s.allocNext ≤ s.outputCap)

/-- The invariant of a run: the launch premises `dims_ok` and `program_total` of R264, kept, and R54 of `output`. -/
def State.wf (s : State) : Bool := s.program.wf && s.input.all Grid.wf && s.outputWf

/-- An operand resolves: its index names a register and, when dereferenced, the Address in that register is in bounds
(R115, R116, R117). -/
def State.resolves (s : State) (o : Operand) : Bool :=
  decide (o.idx < 32) && (!o.deref || s.program.inBounds (toAddress (s.reg o.idx)))

/-- The Word an operand denotes (R115): "the register's Word directly" or "the Word stored at that Address in `program`". -/
def State.valueOf (s : State) (o : Operand) : Word :=
  if o.deref then s.program.cell (toAddress (s.reg o.idx)) else s.reg o.idx

/-- The state with a Word stored where an operand denotes (R117). -/
def State.stored (s : State) (o : Operand) (v : Word) : State :=
  if o.deref then { s with program := s.program.setCell (toAddress (s.reg o.idx)) v } else s.setReg o.idx v

/-- Where an instruction that wrote `v` to register 31 directly leaves the machine (R124): at the raster successor of that Address,
in bounds or not, or, where the successor fits no Word, Halted with `v` in the IP (R121 line 4). -/
def State.continuedAfter (s : State) (v : Word) : State :=
  if representable (nextPos s.program.width (toAddress v)) then
    s.setReg 31 (fromAddress (nextPos s.program.width (toAddress v)))
  else { s.setReg 31 v with runState := .halted }

/-- One byte of `program`, by its address (log 4). -/
def State.programByte (s : State) (a : Nat) : Byte := memRead s.program.cells a

/-- The raster index of the cell a dereferenced operand addresses, the cell a store through it writes. -/
def State.cellIndex (s : State) (o : Operand) : Nat := s.program.index (toAddress (s.reg o.idx))

/-- The same outcome with its next state changed by `f`. -/
def mapNext (f : State → State) : Host.Outcome State Fault Refusal → Host.Outcome State Fault Refusal
  | .next s => .next (f s)
  | .fault e => .fault e
  | .refused r => .refused r

end Machine

end Sys2Proof
end

