-- ==== Sys2Proof/Certificates/Slice0/Obligations.lean ====
section
/-! DEFINITION. The statements for the provers. Each docstring names the rules or sections of spec/ it formalises, and the
decision of spec/92_eei_decisions.md or the log entry where a clause rests on one. A completion statement gives the next state
as an equation, so it is the frame too: what the right side does not name is unchanged. -/

open Sys2Proof Sys2Proof.Machine

/-! ### Codec and encoding -/

/-- `to_address` and `from_address` are exact inverses, and the bytes of a Word are placed as the Address layout says
(R51). -/
def Obligations.AddressCodecRoundTrips : Prop :=
  (∀ x y, x < 4096 → y < 4096 → toAddress (fromAddress ⟨x, y⟩) = ⟨x, y⟩) ∧
  (∀ w : Word, fromAddress (toAddress w) = w ∧ (toAddress w).x < 4096 ∧ (toAddress w).y < 4096) ∧
  (∀ w : Word, (byte0 w).toNat = (toAddress w).x / 16 ∧
    (byte1 w).toNat = (toAddress w).x % 16 * 16 + (toAddress w).y / 256 ∧ (byte2 w).toNat = (toAddress w).y % 256) ∧
  (∀ w : Word, ofBytes (byte0 w) (byte1 w) (byte2 w) = w) ∧
  toAddress 0x123456 = ⟨291, 1110⟩ ∧ byte0 0x123456 = 0x12 ∧ byte1 0x123456 = 0x34 ∧ byte2 0x123456 = 0x56

/-- Every encoding of a well-formed instruction decodes to it: any raw opcode of its reduced opcode (the canonical one and
the aliases) and any value of the fields it does not use. Rests on D3, D4, D7, D8 and D9 for the layout. -/
def Obligations.DecodeOfEveryEncoding : Prop :=
  ∀ (i : Instr) (raw : BitVec 6) (free : Word) (rest : List Byte), i.wf →
    (raw.toNat % 27 = i.opcode → decodeWord (encodeAs raw free i) = i) ∧
    decodeWord (encode i) = i ∧ decodeBytes (encodeBytes i ++ rest) = .ok (i, rest)

/-- Every Word decodes to a well-formed instruction of its reduced opcode, and no bit of the Word is lost: encoding that
instruction again with the Word's raw opcode and unused bits gives the Word. Rests on D7 and D9 for the layout. -/
def Obligations.EncodeOfEveryDecoding : Prop :=
  ∀ w : Word, (decodeWord w).wf ∧ (decodeWord w).opcode = w.toNat / 2 ^ 18 % 27 ∧
    encodeAs (rawOpcode w) w (decodeWord w) = w

/-- The decoder on bytes refuses exactly what is shorter than one Word and consumes three bytes, byte0 first (D1, D8). -/
def Obligations.DecodeBytesConsumesOneWord : Prop :=
  (∀ bs : List Byte, bs.length < 3 → decodeBytes bs = .error .truncated) ∧
  (∀ (b0 b1 b2 : Byte) (rest : List Byte), decodeBytes (b0 :: b1 :: b2 :: rest) =
    .ok (decodeWord (BitVec.ofNat 24 (b0.toNat * 65536 + b1.toNat * 256 + b2.toNat)), rest))

/-- A few Words written out in 95_test_vectors.md sections 2.2 to 2.8 decode to the instructions named there (the field
order is D3, the ALU members D7). -/
def Obligations.WordsOfTheSpecDecode : Prop :=
  decodeWord 0x000A80 = .loadLow ⟨false, 0⟩ 42 ∧ decodeWord 0x082980 = .move ⟨false, 2⟩ ⟨true, 6⟩ ∧
  decodeWord 0x783042 = .add ⟨false, 3⟩ ⟨false, 1⟩ ⟨false, 2⟩ ∧
  decodeWord 0x123456 = .subtract ⟨true, 3⟩ ⟨false, 17⟩ ⟨false, 22⟩ ∧
  decodeWord 0x401080 = .alloc ⟨false, 1⟩ ⟨false, 2⟩ ∧ decodeWord 0x541140 = .jumpIf ⟨false, 1⟩ ⟨false, 5⟩ ∧
  decodeWord 0xC81234 = .ret ∧ decodeWord 0x642000 = .pop ⟨false, 2⟩ ∧
  decodeWord 0xFFFFFF = .bitOr ⟨true, 31⟩ ⟨true, 31⟩ ⟨true, 31⟩

/-! ### Reset, launch, the step -/

/-- The reset values: registers zero, hence the IP at (0,0), stack empty, Running, `output` absent, `alloc_next` 0
(10_state.md section 10; `run_state` and `alloc_next` are D24). Says nothing of the grid, which is the model's choice in
`State.reset` (log 1). -/
def Obligations.ResetValuesOfTheCore : Prop :=
  (∀ i, State.reset.reg i = 0#24) ∧ State.reset.ip = ⟨0, 0⟩ ∧ State.reset.stack = [] ∧ State.reset.runState = .running ∧
  State.reset.output = none ∧ State.reset.allocNext = 0

/-- The invariant of a run holds at reset (its grid is the model's choice, log 1). -/
def Obligations.ResetMeetsTheInvariant : Prop := State.reset.wf

/-- Every step from a state that meets the invariant (dimensions 1..4096, every grid canonical and inside its bounds,
`output` all zero, `alloc_next` at most its size) answers a state that meets it, with the same dimensions and the same
`input`. -/
def Obligations.StepKeepsTheInvariant : Prop :=
  ∀ s t : State, s.wf → step s = .next t →
    t.wf ∧ t.program.width = s.program.width ∧ t.program.height = s.program.height ∧ t.input = s.input

/-- A launch that starts a run gives a state that meets the invariant, holds the reset values of 10_state.md section 10
(D24), and whose `program` is the host's buffer, Word `y*W + x` at coordinate (x, y) (row-major: D27). -/
def Obligations.LaunchGivesTheResetStateOfTheImage : Prop :=
  ∀ (p : Buffer) (inp : Option Buffer) (s : State), launch p inp = .ok s →
    s.wf ∧ (∀ i, s.reg i = 0#24) ∧ s.stack = [] ∧ s.runState = .running ∧ s.output = none ∧ s.allocNext = 0 ∧
    s.program.width = p.width ∧ s.program.height = p.height ∧ s.program.buffer = p ∧
    ∀ x y, x < p.width → y < p.height → p.words[y * p.width + x]? = some (s.program.cell ⟨x, y⟩)

/-- The launch check: OversizedImage exactly when `program` or a supplied `input` exceeds 4096 in either dimension
(20_memory.md section 7); otherwise a run starts when every supplied buffer has both dimensions above zero and one Word
for each cell, and does not start when one has not (D25; log 12). -/
def Obligations.LaunchRejectsOversizedImages : Prop :=
  ∀ (p : Buffer) (inp : Option Buffer),
    (launch p inp = .error (.fatal .oversizedImage) ↔
      ∃ b, (b = p ∨ inp = some b) ∧ (4096 < b.width ∨ 4096 < b.height)) ∧
    ((∃ s, launch p inp = .ok s) ↔
      ∀ b, (b = p ∨ inp = some b) →
        1 ≤ b.width ∧ b.width ≤ 4096 ∧ 1 ≤ b.height ∧ b.height ≤ 4096 ∧ b.words.length = b.width * b.height)

/-- A Running machine fetches the Word at the IP (R111): outside `program` it halts and nothing else changes; inside, the
step is the effect of the instruction that Word decodes to. -/
def Obligations.StepRunsTheFetchedInstruction : Prop :=
  ∀ s : State, s.runState = .running →
    (s.program.inBounds (toAddress (s.reg 31)) = false → step s = .next { s with runState := .halted }) ∧
    (s.program.inBounds (toAddress (s.reg 31)) = true →
      ∀ i, decodeWord (s.program.cell (toAddress (s.reg 31))) = i → step s = exec i s)

/-- No step is taken from Halted or Faulted (10_state.md section 6, D21); the model answers a named fault there (its choice,
log 6). -/
def Obligations.StoppedMachineTakesNoStep : Prop :=
  ∀ s : State, (s.runState = .halted → step s = .fault .runHalted) ∧
    (∀ k, s.runState = .faulted k → step s = .fault (.runFaulted k))

/-- Every instruction, in every state and with every operand, answers a next state: none is refused and none stops the
model (a fatal error is a next state, log 5). -/
def Obligations.EveryInstructionAnswersANextState : Prop := ∀ (i : Instr) (s : State), ∃ t, exec i s = .next t

/-- What the host receives does not depend on a step bound that is large enough (D28), and a Faulted run hands back the kind
alone. -/
def Obligations.RunResultIsStableInTheStepBound : Prop :=
  (∀ (n m : Nat) (s : State), n ≤ m → runFor n s ≠ .didNotFinish → runFor m s = runFor n s) ∧
  (∀ (n : Nat) (s : State) (k : ErrorKind), s.runState = .faulted k → runFor n s = .faulted k)

/-! ### Memory, operands, the stack, the advance -/

/-- `MemRead` and `MemWrite` (R56, R57): in bounds the write replaces the whole Word, a later read of that Address and the
fetch probe give it, and every other cell and byte reads as before; out of bounds both raise AddressOutOfBounds. -/
def Obligations.MemoryReadAfterWrite : Prop :=
  ∀ (s : State) (a v : Word),
    (s.program.inBounds (toAddress a) = false →
      s.memRead1 a = .error .addressOutOfBounds ∧ s.memWrite1 a v = .error .addressOutOfBounds) ∧
    (s.program.inBounds (toAddress a) = true →
      s.memRead1 a = .ok (s.program.cell (toAddress a)) ∧
      ∃ t, s.memWrite1 a v = .ok t ∧ t.memRead1 a = .ok v ∧ t.program.getChecked (toAddress a) = some v ∧
        t = { s with program := t.program } ∧
        t.program.width = s.program.width ∧ t.program.height = s.program.height ∧
        (∀ b : Word, b ≠ a → t.memRead1 b = s.memRead1 b) ∧
        (∀ n, n / 3 ≠ s.program.index (toAddress a) → t.programByte n = s.programByte n))

/-- Operand read (R116), with `*r31` the fetched Word itself. -/
def Obligations.OperandReadResolves : Prop :=
  ∀ (s : State) (o : Operand), o.idx < 32 →
    s.rd o =
      (if o.deref = false then .ok (s.reg o.idx)
       else if s.program.inBounds (toAddress (s.reg o.idx)) then .ok (s.program.cell (toAddress (s.reg o.idx)))
       else .error .addressOutOfBounds) ∧
    (∀ w, s.fetch = some w → s.rd ⟨true, 31⟩ = .ok w)

/-- Operand write (R117): a direct write changes that register alone; a dereferenced write changes one cell and no register,
not the one that supplied the address; a direct write to index 31 changes the IP. -/
def Obligations.OperandWriteStores : Prop :=
  ∀ (s : State) (o : Operand) (v : Word), o.idx < 32 →
    (o.deref = false → ∃ t, s.wr o v = .ok t ∧ t = { s with regs := t.regs } ∧
      ∀ j, t.reg j = if j = o.idx then v else s.reg j) ∧
    (s.wr ⟨false, 31⟩ v = .ok (s.setReg 31 v) ∧ (s.setReg 31 v).ip = toAddress v) ∧
    (o.deref = true → s.program.inBounds (toAddress (s.reg o.idx)) = false → s.wr o v = .error .addressOutOfBounds) ∧
    (o.deref = true → s.program.inBounds (toAddress (s.reg o.idx)) = true →
      ∃ t, s.wr o v = .ok t ∧ t = { s with program := t.program } ∧ t.memRead1 (s.reg o.idx) = .ok v ∧
        ∀ b : Word, b ≠ s.reg o.idx → t.memRead1 b = s.memRead1 b)

/-- One last-in first-out stack that never overflows (10_state.md section 5, D16; its top is the head of the list, log 7). -/
def Obligations.StackIsLastInFirstOut : Prop :=
  ∀ (s : State) (v : Word), (s.push v).pop = .ok (v, s) ∧ (s.stack = [] ↔ s.pop = .error .stackUnderflow)

/-- The raster advance from an in-bounds IP (40_cycle_and_operands.md section 3; D10): the next column, at the end of a row
column 0 of the next row, and in row 4095 of the last column the run ends; nothing else changes. -/
def Obligations.AdvanceFollowsRasterOrder : Prop :=
  ∀ s : State, s.program.inBounds s.ip = true → s.program.width ≤ 4096 →
    (s.ip.x + 1 < s.program.width → s.advance = s.setReg 31 (fromAddress ⟨s.ip.x + 1, s.ip.y⟩)) ∧
    (s.ip.x + 1 = s.program.width → s.ip.y < 4095 → s.advance = s.setReg 31 (fromAddress ⟨0, s.ip.y + 1⟩)) ∧
    (s.ip.x + 1 = s.program.width → s.ip.y = 4095 → s.advance = { s with runState := .halted })

/-- If the IP is out of bounds when the advance begins, no further instruction executes: the run is Halted at once or at the
next fetch (40_cycle_and_operands.md section 3, derived there; D10). -/
def Obligations.AdvanceFromOutsideEndsTheRun : Prop :=
  ∀ s : State, s.runState = .running → s.program.inBounds s.ip = false →
    s.advance = s.halt ∨ (s.advance.runState = .running ∧ step s.advance = .next s.advance.halt)

/-! ### What each instruction does when it completes -/

/-- LoadLow replaces the low 12 bits, LoadHigh the high 12 bits, by the zero-extended immediate, in a register or a cell
(41_load_immediate.md; D5, D6). -/
def Obligations.LoadImmediateCompletes : Prop :=
  ∀ (s : State) (r : Operand) (imm : BitVec 6), s.resolves r →
    exec (.loadLow r imm) s =
      .next (s.stored r (BitVec.ofNat 24 ((s.valueOf r).toNat / 4096 * 4096 + imm.toNat))).advance ∧
    exec (.loadHigh r imm) s =
      .next (s.stored r (BitVec.ofNat 24 (imm.toNat * 4096 + (s.valueOf r).toNat % 4096))).advance

/-- Move copies one Word between any two locations (42_move.md; D3 for the operand roles). -/
def Obligations.MoveCompletes : Prop :=
  ∀ (s : State) (dst src : Operand), s.resolves src → s.resolves dst →
    exec (.move dst src) s = .next (s.stored dst (s.valueOf src)).advance

/-- Add, Subtract and Multiply write the exact result modulo 2^24 (43_alu.md section 3; Subtract and Multiply D19). -/
def Obligations.ArithmeticCompletes : Prop :=
  ∀ (s : State) (dst a b : Operand), s.resolves a → s.resolves b → s.resolves dst →
    exec (.add dst a b) s =
      .next (s.stored dst (BitVec.ofNat 24 (((s.valueOf a).toNat + (s.valueOf b).toNat) % 2 ^ 24))).advance ∧
    exec (.subtract dst a b) s =
      .next (s.stored dst (BitVec.ofNat 24 (if (s.valueOf b).toNat ≤ (s.valueOf a).toNat
        then (s.valueOf a).toNat - (s.valueOf b).toNat
        else (s.valueOf a).toNat + 2 ^ 24 - (s.valueOf b).toNat))).advance ∧
    exec (.multiply dst a b) s =
      .next (s.stored dst (BitVec.ofNat 24 (((s.valueOf a).toNat * (s.valueOf b).toNat) % 2 ^ 24))).advance

/-- Divide and Modulo by a nonzero divisor write `q` and `r` with `a = q*b + r` and `r < b` (43_alu.md section 2; D19). -/
def Obligations.DivisionCompletes : Prop :=
  ∀ (s : State) (dst a b : Operand), s.resolves a → s.resolves b → s.resolves dst → s.valueOf b ≠ 0#24 →
    ∃ q r : Word, (s.valueOf a).toNat = q.toNat * (s.valueOf b).toNat + r.toNat ∧ r.toNat < (s.valueOf b).toNat ∧
      exec (.divide dst a b) s = .next (s.stored dst q).advance ∧
      exec (.modulo dst a b) s = .next (s.stored dst r).advance

/-- And and Or write the bitwise result: bit `i` is 1 when bit `i` of both, of either, is 1 (43_alu.md section 3). -/
def Obligations.BitwiseCompletes : Prop :=
  ∀ (s : State) (dst a b : Operand), s.resolves a → s.resolves b → s.resolves dst →
    ∃ u v : Word,
      (∀ i, u.getLsbD i = true ↔ (s.valueOf a).getLsbD i = true ∧ (s.valueOf b).getLsbD i = true) ∧
      (∀ i, v.getLsbD i = true ↔ (s.valueOf a).getLsbD i = true ∨ (s.valueOf b).getLsbD i = true) ∧
      exec (.bitAnd dst a b) s = .next (s.stored dst u).advance ∧
      exec (.bitOr dst a b) s = .next (s.stored dst v).advance

/-- The six comparisons write the Word 1 when the unsigned relation holds and 0 when it does not (43_alu.md section 4;
unsigned: D19). -/
def Obligations.ComparisonsComplete : Prop :=
  ∀ (s : State) (dst a b : Operand), s.resolves a → s.resolves b → s.resolves dst →
    exec (.equal dst a b) s = .next (s.stored dst (if s.valueOf a = s.valueOf b then 1#24 else 0#24)).advance ∧
    exec (.notEqual dst a b) s = .next (s.stored dst (if s.valueOf a = s.valueOf b then 0#24 else 1#24)).advance ∧
    exec (.greaterThan dst a b) s =
      .next (s.stored dst (if (s.valueOf b).toNat < (s.valueOf a).toNat then 1#24 else 0#24)).advance ∧
    exec (.lessThan dst a b) s =
      .next (s.stored dst (if (s.valueOf a).toNat < (s.valueOf b).toNat then 1#24 else 0#24)).advance ∧
    exec (.greaterThanEqual dst a b) s =
      .next (s.stored dst (if (s.valueOf a).toNat < (s.valueOf b).toNat then 0#24 else 1#24)).advance ∧
    exec (.lessThanEqual dst a b) s =
      .next (s.stored dst (if (s.valueOf b).toNat < (s.valueOf a).toNat then 0#24 else 1#24)).advance

/-- Alloc of a size that fits: `output` is present, `alloc_next` grows by the size, `dst` receives the Address of the old
`alloc_next` (44_memory_ops.md; D4, D18). -/
def Obligations.AllocCompletes : Prop :=
  ∀ (s : State) (size dst : Operand), s.resolves size → s.resolves dst →
    s.allocNext + (s.valueOf size).toNat ≤ s.program.width * s.program.height →
    exec (.alloc size dst) s =
      .next (State.stored
        { s with output := some (s.output.getD ⟨s.program.width, s.program.height, []⟩),
                 allocNext := s.allocNext + (s.valueOf size).toNat }
        dst (fromAddress ⟨s.allocNext % s.program.width, s.allocNext / s.program.width % 4096⟩)).advance

/-- An Alloc that does not fit materializes `output`, reserves nothing and raises AddressOutOfBounds (D18). -/
def Obligations.AllocThatDoesNotFitFaults : Prop :=
  ∀ (s : State) (size dst : Operand), s.resolves size →
    s.program.width * s.program.height < s.allocNext + (s.valueOf size).toNat →
    exec (.alloc size dst) s =
      .next { s with output := some (s.output.getD ⟨s.program.width, s.program.height, []⟩),
                     runState := .faulted .addressOutOfBounds }

/-- While `output` has a free cell, the base Alloc returns is the coordinate of the first free one: it is in bounds and its
raster index is `alloc_next` (D18). -/
def Obligations.AllocBaseIsTheNextFreeCell : Prop :=
  ∀ s : State, s.wf → s.allocNext < s.program.width * s.program.height →
    s.program.inBounds (toAddress s.allocBase) = true ∧ s.program.index (toAddress s.allocBase) = s.allocNext

/-- MemCopy with both ranges inside `program` (44_memory_ops.md; D17): it copies forward one Word at a time, so Word `k` of the
destination is Word `k` of the source, and where the destination starts `d` cells inside the source range the first `d`
Words repeat. Every byte outside the destination range reads as before, and nothing but `program` and the IP changes. -/
def Obligations.MemCopyCopiesForward : Prop :=
  ∀ (s : State) (dst src len : Operand), s.resolves dst → s.resolves src → s.resolves len →
    s.program.inBounds (toAddress (s.valueOf src)) = true → s.program.inBounds (toAddress (s.valueOf dst)) = true →
    s.program.index (toAddress (s.valueOf src)) + (s.valueOf len).toNat ≤ s.program.width * s.program.height →
    s.program.index (toAddress (s.valueOf dst)) + (s.valueOf len).toNat ≤ s.program.width * s.program.height →
    ∃ g : Grid, exec (.memCopy dst src len) s = .next (State.advance { s with program := g }) ∧
      g.width = s.program.width ∧ g.height = s.program.height ∧
      (∀ k, k < (s.valueOf len).toNat →
        readWordAt g.cells (s.program.index (toAddress (s.valueOf dst)) + k) =
          readWordAt s.program.cells (s.program.index (toAddress (s.valueOf src)) +
            (if s.program.index (toAddress (s.valueOf src)) < s.program.index (toAddress (s.valueOf dst))
             then k % (s.program.index (toAddress (s.valueOf dst)) - s.program.index (toAddress (s.valueOf src)))
             else k))) ∧
      (∀ n, (n / 3 < s.program.index (toAddress (s.valueOf dst)) ∨
          s.program.index (toAddress (s.valueOf dst)) + (s.valueOf len).toNat ≤ n / 3) →
        memRead g.cells n = memRead s.program.cells n)

/-- MemCopy of no Words only advances the IP, whatever the two Addresses (D17). -/
def Obligations.MemCopyOfNoWordsOnlyAdvances : Prop :=
  ∀ (s : State) (dst src len : Operand), s.resolves dst → s.resolves src → s.resolves len → s.valueOf len = 0#24 →
    exec (.memCopy dst src len) s = .next s.advance

/-- MemCopy of at least one Word that starts or runs outside `program` raises AddressOutOfBounds (D17); no register, stack or
`output` change. -/
def Obligations.MemCopyPastTheGridFaults : Prop :=
  ∀ (s : State) (dst src len : Operand), s.resolves dst → s.resolves src → s.resolves len → s.valueOf len ≠ 0#24 →
    (s.program.inBounds (toAddress (s.valueOf src)) = false ∨ s.program.inBounds (toAddress (s.valueOf dst)) = false ∨
      s.program.width * s.program.height < s.program.index (toAddress (s.valueOf src)) + (s.valueOf len).toNat ∨
      s.program.width * s.program.height < s.program.index (toAddress (s.valueOf dst)) + (s.valueOf len).toNat) →
    ∃ g : Grid, g.width = s.program.width ∧ g.height = s.program.height ∧
      exec (.memCopy dst src len) s = .next { s with program := g, runState := .faulted .addressOutOfBounds }

/-- CurrAddress stores the IP before the advance (44_memory_ops.md; D3 for the operand field). -/
def Obligations.CurrAddressCompletes : Prop :=
  ∀ (s : State) (dst : Operand), s.resolves dst → exec (.currAddress dst) s = .next (s.stored dst (s.reg 31)).advance

/-- Jump, and JumpIf with a nonzero condition, set the IP to an in-bounds target and nothing else; JumpIf with a zero condition
advances, whatever its target (45_control_flow.md section 2; D13). -/
def Obligations.JumpsComplete : Prop :=
  ∀ (s : State) (cond target : Operand),
    (s.resolves target → s.program.inBounds (toAddress (s.valueOf target)) = true →
      exec (.jump target) s = .next (s.setReg 31 (s.valueOf target)) ∧
      (s.resolves cond → s.valueOf cond ≠ 0#24 → exec (.jumpIf cond target) s = .next (s.setReg 31 (s.valueOf target)))) ∧
    (s.resolves cond → s.valueOf cond = 0#24 → exec (.jumpIf cond target) s = .next s.advance)

/-- Call, and CallIf with a nonzero condition, push the raster successor of their own coordinate and set the IP to an in-bounds
target; CallIf with a zero condition pushes nothing and advances (45_control_flow.md sections 1 and 2; D13, D15, D16). -/
def Obligations.CallsComplete : Prop :=
  ∀ (s : State) (cond target : Operand),
    (s.resolves target → s.program.inBounds (toAddress (s.valueOf target)) = true →
      (nextPos s.program.width s.ip).y ≤ 4095 →
      exec (.call target) s =
        .next (State.setReg { s with stack := fromAddress (nextPos s.program.width s.ip) :: s.stack } 31
          (s.valueOf target)) ∧
      (s.resolves cond → s.valueOf cond ≠ 0#24 → exec (.callIf cond target) s = exec (.call target) s)) ∧
    (s.resolves cond → s.valueOf cond = 0#24 → exec (.callIf cond target) s = .next s.advance)

/-- A taken transfer to a target outside `program`, and a Call or a taken CallIf whose successor row is 4096, raise AddressOutOfBounds with nothing
pushed and nothing else changed (45_control_flow.md section 1; D15). -/
def Obligations.BadTransfersFault : Prop :=
  ∀ (s : State) (cond target : Operand), s.resolves target →
    (s.program.inBounds (toAddress (s.valueOf target)) = false →
      exec (.jump target) s = .next { s with runState := .faulted .addressOutOfBounds } ∧
      exec (.call target) s = .next { s with runState := .faulted .addressOutOfBounds } ∧
      (s.resolves cond → s.valueOf cond ≠ 0#24 →
        exec (.jumpIf cond target) s = .next { s with runState := .faulted .addressOutOfBounds } ∧
        exec (.callIf cond target) s = .next { s with runState := .faulted .addressOutOfBounds })) ∧
    (s.program.inBounds (toAddress (s.valueOf target)) = true → 4095 < (nextPos s.program.width s.ip).y →
      exec (.call target) s = .next { s with runState := .faulted .addressOutOfBounds } ∧
      (s.resolves cond → s.valueOf cond ≠ 0#24 →
        exec (.callIf cond target) s = .next { s with runState := .faulted .addressOutOfBounds }))

/-- Return pops the top Word into the IP, in bounds or not (45_control_flow.md section 2; D14). -/
def Obligations.ReturnCompletes : Prop :=
  ∀ (s : State) (v : Word) (rest : List Word), s.stack = v :: rest →
    exec .ret s = .next (State.setReg { s with stack := rest } 31 v)

/-- Call followed immediately by Return restores the IP to the Word position following the Call, with the stack and every other
register as before (45_control_flow.md section 2; D15, D16). -/
def Obligations.CallThenReturnRestoresTheSuccessor : Prop :=
  ∀ (s t u : State) (target : Operand), s.runState = .running → s.program.inBounds s.ip = true → s.program.width ≤ 4096 →
    exec (.call target) s = .next t → t.runState = .running → exec .ret t = .next u →
    u.ip = nextPos s.program.width s.ip ∧ u.stack = s.stack ∧ (∀ r, r < 31 → u.reg r = s.reg r) ∧
    u.program = s.program ∧ u.runState = .running

/-- Halt: `run_state` becomes Halted, nothing else changes, and the host receives `program` and `output` as they stand; every Word
with raw opcode 26 or 53, and no other Word, is Halt (R205). -/
def Obligations.HaltEndsTheRun : Prop :=
  (∀ w : Word, decodeWord w = .halt ↔
    (0x680000 ≤ w.toNat ∧ w.toNat ≤ 0x6BFFFF) ∨ (0xD40000 ≤ w.toNat ∧ w.toNat ≤ 0xD7FFFF)) ∧
  encode .halt = 0x680000 ∧
  ∀ s : State, exec .halt s = .next { s with runState := .halted } ∧
    ∀ n, runFor n { s with runState := .halted } = .halted s.program.buffer (s.output.map Grid.buffer)

/-- Push puts the Word of its operand on the stack and advances; Pop takes the top Word into its operand's location and advances
(46_stack.md; D3, D16). -/
def Obligations.PushAndPopComplete : Prop :=
  ∀ (s : State) (r : Operand), s.resolves r →
    exec (.push r) s = .next (State.advance { s with stack := s.valueOf r :: s.stack }) ∧
    ∀ v rest, s.stack = v :: rest → exec (.pop r) s = .next (State.stored { s with stack := rest } r v).advance

/-! ### Where an instruction raises -/

/-- Divide and Modulo raise ArithmeticFault when the resolved divisor is zero, after both sources were read and before the
destination is written: nothing but `run_state` changes (60_exceptions.md section 1). A source that does not resolve is
reported first, whatever the divisor (60_exceptions.md section 2; D12, conflict C10). -/
def Obligations.DivisionByZeroFaults : Prop :=
  ∀ (s : State) (dst a b : Operand),
    (s.resolves a → s.resolves b → s.valueOf b = 0#24 →
      exec (.divide dst a b) s = .next { s with runState := .faulted .arithmeticFault } ∧
      exec (.modulo dst a b) s = .next { s with runState := .faulted .arithmeticFault }) ∧
    (a.idx < 32 → b.idx < 32 → (s.resolves a && s.resolves b) = false →
      exec (.divide dst a b) s = .next { s with runState := .faulted .addressOutOfBounds } ∧
      exec (.modulo dst a b) s = .next { s with runState := .faulted .addressOutOfBounds })

/-- Return and Pop on an empty stack raise StackUnderflow before anything is written, so at reset they do (R234). -/
def Obligations.EmptyStackFaults : Prop :=
  (∀ (s : State) (r : Operand), s.stack = [] →
    exec .ret s = .next { s with runState := .faulted .stackUnderflow } ∧
    exec (.pop r) s = .next { s with runState := .faulted .stackUnderflow }) ∧
  State.reset.stack = []

/-- Every operand form that does not resolve raises AddressOutOfBounds: the first, the second and the third source read, the target
of a taken JumpIf or CallIf (R202, R203), and, once the sources resolve, the destination, which is not written
(60_exceptions.md section 1; order D12). Nothing else changes, but for what comes before the write: Alloc has materialized
`output` and reserved, Pop has popped (that a Faulted state keeps these is the model's choice, log 5). -/
def Obligations.UnresolvedOperandsFault : Prop :=
  ∀ (s : State) (o p q : Operand) (imm : BitVec 6), o.wf → s.resolves o = false →
    (∀ i ∈ [Instr.loadLow o imm, .loadHigh o imm, .move p o, .add p o q, .subtract p o q, .multiply p o q, .divide p o q,
        .modulo p o q, .bitAnd p o q, .bitOr p o q, .equal p o q, .notEqual p o q, .greaterThan p o q, .lessThan p o q,
        .greaterThanEqual p o q, .lessThanEqual p o q, .alloc o p, .memCopy o p q, .currAddress o, .jump o, .call o,
        .jumpIf o p, .callIf o p, .push o],
      exec i s = .next { s with runState := .faulted .addressOutOfBounds }) ∧
    (s.resolves p → ∀ i ∈ [Instr.add q p o, .subtract q p o, .multiply q p o, .divide q p o, .modulo q p o, .bitAnd q p o,
        .bitOr q p o, .equal q p o, .notEqual q p o, .greaterThan q p o, .lessThan q p o, .greaterThanEqual q p o,
        .lessThanEqual q p o, .memCopy p o q, .move o p],
      exec i s = .next { s with runState := .faulted .addressOutOfBounds }) ∧
    (s.resolves p → s.valueOf p ≠ 0#24 → ∀ i ∈ [Instr.jumpIf p o, .callIf p o],
      exec i s = .next { s with runState := .faulted .addressOutOfBounds }) ∧
    (s.resolves p → s.resolves q → ∀ i ∈ [Instr.memCopy p q o, .add o p q, .subtract o p q, .multiply o p q, .bitAnd o p q,
        .bitOr o p q, .equal o p q, .notEqual o p q, .greaterThan o p q, .lessThan o p q, .greaterThanEqual o p q,
        .lessThanEqual o p q],
      exec i s = .next { s with runState := .faulted .addressOutOfBounds }) ∧
    (s.resolves p → s.resolves q → s.valueOf q ≠ 0#24 → ∀ i ∈ [Instr.divide o p q, .modulo o p q],
      exec i s = .next { s with runState := .faulted .addressOutOfBounds }) ∧
    (s.resolves p → s.allocNext + (s.valueOf p).toNat ≤ s.program.width * s.program.height →
      exec (.alloc p o) s =
        .next { s with output := some (s.output.getD ⟨s.program.width, s.program.height, []⟩),
                       allocNext := s.allocNext + (s.valueOf p).toNat, runState := .faulted .addressOutOfBounds }) ∧
    (∀ v rest, s.stack = v :: rest →
      exec (.pop o) s = .next { s with stack := rest, runState := .faulted .addressOutOfBounds })

/-- Which error kinds an instruction can raise, and when: AddressOutOfBounds; StackUnderflow, by Return and Pop on an empty stack;
ArithmeticFault, by Divide and Modulo with a zero divisor. InvalidRegister and OversizedImage are raised by no well-formed
instruction (60_exceptions.md section 1; D26). -/
def Obligations.InstructionsRaiseOnlyTheirErrors : Prop :=
  ∀ (i : Instr) (s t : State) (k : ErrorKind), i.wf → s.runState = .running → exec i s = .next t →
    t.runState = .faulted k →
      (k = .addressOutOfBounds) ∨
      (k = .stackUnderflow ∧ s.stack = [] ∧ (i = .ret ∨ ∃ r, i = .pop r)) ∨
      (k = .arithmeticFault ∧ ∃ dst a b, (i = .divide dst a b ∨ i = .modulo dst a b) ∧ s.valueOf b = 0#24)

/-- An instruction that raises has written no register: the registers, the IP among them, are those before it (the model keeps
what else it wrote, log 5). -/
def Obligations.RaisingLeavesRegisters : Prop :=
  ∀ (i : Instr) (s t : State) (k : ErrorKind), s.runState = .running → exec i s = .next t →
    t.runState = .faulted k → t.regs = s.regs

/-! ### Frames and whole-machine rules -/

/-- An instruction changes no register but its direct destination and the IP (10_state.md sections 2 and 3), so none below 31 when it
has no direct destination. -/
def Obligations.OnlyTheDestinationRegisterChanges : Prop :=
  ∀ (i : Instr) (s t : State) (r : Nat), exec i s = .next t → r ≠ 31 → i.dest ≠ some ⟨false, r⟩ → t.reg r = s.reg r

/-- What the IP holds after an instruction that does not transfer and does not write register 31 directly: the raster successor while
the run goes on, its own coordinate when the run ended (10_state.md section 3; D10). -/
def Obligations.NextIpIsTheRasterSuccessor : Prop :=
  ∀ (i : Instr) (s t : State), s.runState = .running → exec i s = .next t → i.transfers = false →
    i.dest ≠ some ⟨false, 31⟩ →
      (t.runState = .running ∧ i ≠ .halt ∧ t.ip = nextPos s.program.width s.ip) ∨
      (t.runState ≠ .running ∧ t.pc = s.pc)

/-- Every instruction with a direct destination of register 31, when it completes, transfers control to the raster successor of the
Word it writes there, with no bounds check, or halts with that Word in the IP where the successor fits no Word
(40_cycle_and_operands.md sections 3 and 4; D11, D10). The Words written are those of the instructions' own rules. -/
def Obligations.WritingRegister31ContinuesAtTheSuccessor : Prop :=
  ∀ (s : State) (a b : Operand) (imm : BitVec 6), s.resolves a → s.resolves b →
    (∀ i v, (i, v) ∈ ([
        (.loadLow ⟨false, 31⟩ imm, BitVec.ofNat 24 ((s.reg 31).toNat / 4096 * 4096 + imm.toNat)),
        (.loadHigh ⟨false, 31⟩ imm, BitVec.ofNat 24 (imm.toNat * 4096 + (s.reg 31).toNat % 4096)),
        (.move ⟨false, 31⟩ a, s.valueOf a),
        (.add ⟨false, 31⟩ a b, BitVec.ofNat 24 ((s.valueOf a).toNat + (s.valueOf b).toNat)),
        (.subtract ⟨false, 31⟩ a b, BitVec.ofNat 24 ((s.valueOf a).toNat + 2 ^ 24 - (s.valueOf b).toNat)),
        (.multiply ⟨false, 31⟩ a b, BitVec.ofNat 24 ((s.valueOf a).toNat * (s.valueOf b).toNat)),
        (.bitAnd ⟨false, 31⟩ a b, s.valueOf a &&& s.valueOf b),
        (.bitOr ⟨false, 31⟩ a b, s.valueOf a ||| s.valueOf b),
        (.equal ⟨false, 31⟩ a b, if s.valueOf a = s.valueOf b then 1#24 else 0#24),
        (.notEqual ⟨false, 31⟩ a b, if s.valueOf a = s.valueOf b then 0#24 else 1#24),
        (.greaterThan ⟨false, 31⟩ a b, if (s.valueOf b).toNat < (s.valueOf a).toNat then 1#24 else 0#24),
        (.lessThan ⟨false, 31⟩ a b, if (s.valueOf a).toNat < (s.valueOf b).toNat then 1#24 else 0#24),
        (.greaterThanEqual ⟨false, 31⟩ a b, if (s.valueOf a).toNat < (s.valueOf b).toNat then 0#24 else 1#24),
        (.lessThanEqual ⟨false, 31⟩ a b, if (s.valueOf b).toNat < (s.valueOf a).toNat then 0#24 else 1#24),
        (.currAddress ⟨false, 31⟩, s.reg 31)] : List (Instr × Word)) →
      exec i s = .next (s.continuedAfter v)) ∧
    (s.valueOf b ≠ 0#24 →
      exec (.divide ⟨false, 31⟩ a b) s =
        .next (s.continuedAfter (BitVec.ofNat 24 ((s.valueOf a).toNat / (s.valueOf b).toNat))) ∧
      exec (.modulo ⟨false, 31⟩ a b) s =
        .next (s.continuedAfter (BitVec.ofNat 24 ((s.valueOf a).toNat % (s.valueOf b).toNat)))) ∧
    (s.allocNext + (s.valueOf a).toNat ≤ s.program.width * s.program.height →
      exec (.alloc a ⟨false, 31⟩) s =
        .next (State.continuedAfter
          { s with output := some (s.output.getD ⟨s.program.width, s.program.height, []⟩),
                   allocNext := s.allocNext + (s.valueOf a).toNat }
          (fromAddress ⟨s.allocNext % s.program.width, s.allocNext / s.program.width % 4096⟩))) ∧
    (∀ v rest, s.stack = v :: rest →
      exec (.pop ⟨false, 31⟩) s = .next (State.continuedAfter { s with stack := rest } v))

/-- An instruction with no dereferenced destination, MemCopy apart, leaves every byte of `program` as it was. -/
def Obligations.ProgramUnchangedWithoutAStore : Prop :=
  ∀ (i : Instr) (s t : State), exec i s = .next t → (∀ d, i.dest = some d → d.deref = false) →
    (∀ dst src len, i ≠ .memCopy dst src len) →
    (∀ n, t.programByte n = s.programByte n) ∧ t.program = s.program

/-- An instruction with a dereferenced destination changes at most the three bytes of the cell that register addresses before the
instruction. -/
def Obligations.StoreChangesOnlyItsCell : Prop :=
  ∀ (i : Instr) (s t : State) (d : Operand), exec i s = .next t → i.dest = some d → d.deref = true →
    ∀ n, n / 3 ≠ s.cellIndex d → t.programByte n = s.programByte n

/-- MemCopy, completed or not, changes at most the bytes of its destination range. -/
def Obligations.MemCopyStoresOnlyItsRange : Prop :=
  ∀ (s t : State) (dst src len : Operand), exec (.memCopy dst src len) s = .next t →
    ∀ n, (n / 3 < s.program.index (toAddress (s.valueOf dst)) ∨
        s.program.index (toAddress (s.valueOf dst)) + (s.valueOf len).toNat ≤ n / 3) →
      t.programByte n = s.programByte n

/-- No instruction reaches below the top of the stack: only Call, CallIf and Push add one Word, only Return and Pop remove one
(10_state.md section 5; D16). -/
def Obligations.OnlyTheTopOfTheStackChanges : Prop :=
  ∀ (i : Instr) (s t : State), exec i s = .next t →
    t.stack = s.stack ∨
    (∃ v, t.stack = v :: s.stack ∧ ((∃ o, i = .call o) ∨ (∃ c o, i = .callIf c o) ∨ ∃ o, i = .push o)) ∨
    (∃ v, s.stack = v :: t.stack ∧ (i = .ret ∨ ∃ o, i = .pop o))

/-- Only Alloc changes `output` and `alloc_next`, `alloc_next` never falls, a present `output` stays as it is, and no instruction
changes `input` (10_state.md section 7, 20_memory.md section 1; D18). -/
def Obligations.OnlyAllocTouchesOutput : Prop :=
  ∀ (i : Instr) (s t : State), exec i s = .next t →
    t.input = s.input ∧ s.allocNext ≤ t.allocNext ∧ (∀ g, s.output = some g → t.output = some g) ∧
    ((∀ size dst, i ≠ .alloc size dst) → t.output = s.output ∧ t.allocNext = s.allocNext)

/-- `input` has no effect on execution: the step of a machine with another `input` is the same step with that `input`
(20_memory.md section 1, derived there; log 9). -/
def Obligations.InputHasNoEffect : Prop :=
  ∀ (s : State) (inp : Option Grid),
    step { s with input := inp } = mapNext (fun t => { t with input := inp }) (step s)

/-- The contents of `output` never influence execution: with another grid in its place the step is the same
(20_memory.md section 1, derived there). -/
def Obligations.OutputContentsHaveNoEffect : Prop :=
  ∀ (s : State) (g h : Grid), s.output = some g →
    step { s with output := some h } = mapNext (fun t => { t with output := some h }) (step s)

/-- A write to `program` is seen by the very next fetch of that cell, with no fence (20_memory.md section 6, derived there). -/
def Obligations.WrittenWordIsFetched : Prop :=
  ∀ (s t : State) (a v : Word), s.runState = .running → s.memWrite1 a v = .ok t →
    (t.redirect a).fetch = some v ∧ step (t.redirect a) = exec (decodeWord v) (t.redirect a)
end

