-- ==== Sys2Proof/Laws/Encoding.lean ====
section
/-! SUPPORT. The four fields of a packed Word, and an operand read back from its field. -/

namespace Sys2Proof

theorem rawOpcode_packWord (op a b c : BitVec 6) : rawOpcode (packWord op a b c) = op := by
  unfold rawOpcode packWord
  ext i hi
  have e1 : ¬ 18 + i < 6 := by omega
  have e2 : ¬ 18 + i - 6 < 6 := by omega
  have e3 : ¬ 18 + i - 6 - 6 < 6 := by omega
  have e4 : 18 + i - 6 - 6 - 6 = i := by omega
  simp only [BitVec.getElem_extractLsb', BitVec.getLsbD_append, e1, e2, e3, e4, if_false,
    BitVec.getLsbD_eq_getElem hi]

theorem fieldA_packWord (op a b c : BitVec 6) : fieldA (packWord op a b c) = a := by
  unfold fieldA packWord
  ext i hi
  have e1 : ¬ 12 + i < 6 := by omega
  have e2 : ¬ 12 + i - 6 < 6 := by omega
  have e3 : 12 + i - 6 - 6 < 6 := by omega
  have e4 : 12 + i - 6 - 6 = i := by omega
  simp only [BitVec.getElem_extractLsb', BitVec.getLsbD_append, e1, e2, e4, hi, if_false, if_true,
    BitVec.getLsbD_eq_getElem hi]

theorem fieldB_packWord (op a b c : BitVec 6) : fieldB (packWord op a b c) = b := by
  unfold fieldB packWord
  ext i hi
  have e1 : ¬ 6 + i < 6 := by omega
  have e2 : 6 + i - 6 = i := by omega
  simp only [BitVec.getElem_extractLsb', BitVec.getLsbD_append, e1, e2, hi, if_false, if_true,
    BitVec.getLsbD_eq_getElem hi]

theorem fieldC_packWord (op a b c : BitVec 6) : fieldC (packWord op a b c) = c := by
  unfold fieldC packWord
  ext i hi
  have e1 : 0 + i < 6 := by omega
  have e2 : 0 + i = i := by omega
  simp only [BitVec.getElem_extractLsb', BitVec.getLsbD_append, e2, hi, if_true,
    BitVec.getLsbD_eq_getElem hi]

/-- A field read back is the operand that was written, for every index the field can hold. -/
theorem operandOf_operandField (o : Operand) (h : o.wf = true) : operandOf (operandField o) = o := by
  obtain ⟨d, i⟩ := o
  have hi : i < 32 := by simpa [Operand.wf] using h
  interval_cases i <;> cases d <;> decide

/-- A field written back is the field that was read. -/
theorem operandField_operandOf (f : BitVec 6) : operandField (operandOf f) = f := by revert f; decide

/-- Every operand read from a field is well formed. -/
theorem operandOf_wf (f : BitVec 6) : (operandOf f).wf = true := by revert f; decide

end Sys2Proof
end

