-- ==== Sys2Proof/Laws/Memory.lean ====
section
/-! SUPPORT. The laws of the byte list: a read after a write, and the canonical form, kept by every memory operation and held
at reset. -/

namespace Sys2Proof.Machine

/-! ### Read after write -/

theorem memRead_filter_self (m : Memory) (a : Nat) : memRead (memErase m a) a = unlistedByte := by
  induction m with
  | nil => rfl
  | cons c rest ih =>
    obtain ⟨k, v⟩ := c
    by_cases h : k = a
    · simpa [memErase, h] using ih
    · have : memErase ((k, v) :: rest) a = (k, v) :: memErase rest a := by simp [memErase, h]
      rw [this, memRead, if_neg h, ih]

theorem memRead_erase_ne (m : Memory) {a n : Nat} (h : n ≠ a) : memRead (memErase m a) n = memRead m n := by
  induction m with
  | nil => rfl
  | cons c rest ih =>
    obtain ⟨k, v⟩ := c
    by_cases hk : k = a
    · have : memErase ((k, v) :: rest) a = memErase rest a := by simp [memErase, hk]
      rw [this, ih, memRead, if_neg (by omega)]
    · have : memErase ((k, v) :: rest) a = (k, v) :: memErase rest a := by simp [memErase, hk]
      rw [this, memRead, memRead, ih]

theorem memRead_insert_self {m : Memory} {a : Nat} (b : Byte) (h : ∀ c ∈ m, c.1 ≠ a) :
    memRead (memInsert m a b) a = b := by
  induction m with
  | nil => simp [memInsert, memRead]
  | cons c rest ih =>
    obtain ⟨k, v⟩ := c
    have hk : k ≠ a := h (k, v) (by simp)
    unfold memInsert
    split
    · simp [memRead]
    · rw [memRead, if_neg hk]; exact ih fun c hc => h c (by simp [hc])

theorem memRead_insert_ne (m : Memory) {a n : Nat} (b : Byte) (h : n ≠ a) :
    memRead (memInsert m a b) n = memRead m n := by
  induction m with
  | nil => simp [memInsert, memRead, Ne.symm h]
  | cons c rest ih =>
    obtain ⟨k, v⟩ := c
    unfold memInsert
    split
    · rw [memRead, if_neg (Ne.symm h)]
    · rw [memRead, memRead, ih]

/-- A byte read after a write: the byte written, at its address, else what it was. Holds of every list, canonical or not. -/
theorem memRead_memWrite (m : Memory) (a n : Nat) (b : Byte) :
    memRead (memWrite m a b) n = if n = a then b else memRead m n := by
  unfold memWrite
  split
  · next hb =>
    by_cases h : n = a
    · subst h; rw [memRead_filter_self, if_pos rfl, hb]
    · rw [memRead_erase_ne m h, if_neg h]
  · by_cases h : n = a
    · subst h
      rw [if_pos rfl]
      exact memRead_insert_self b fun c hc => by simpa [memErase] using (List.mem_filter.mp hc).2
    · rw [memRead_insert_ne _ b h, memRead_erase_ne m h, if_neg h]

/-- The bytes of a Word's cell after it is written, and every byte of every other cell. -/
theorem memRead_writeWordAt (m : Memory) (i n : Nat) (w : Word) :
    memRead (writeWordAt m i w) n =
      if n = 3 * i + 2 then byte2 w else if n = 3 * i + 1 then byte1 w else if n = 3 * i then byte0 w
      else memRead m n := by
  simp only [writeWordAt, memRead_memWrite]

/-- A byte of another cell is not changed. -/
theorem memRead_writeWordAt_ne (m : Memory) {i n : Nat} (w : Word) (h : n / 3 ≠ i) :
    memRead (writeWordAt m i w) n = memRead m n := by
  rw [memRead_writeWordAt, if_neg (by omega), if_neg (by omega), if_neg (by omega)]

/-! ### The canonical form -/

theorem Memory.wf_cons (c : Host.Cell) (m : Memory) :
    Memory.wf (c :: m) = true ↔ c.2 ≠ unlistedByte ∧ (∀ d ∈ m, c.1 < d.1) ∧ Memory.wf m = true := by
  simp [Memory.wf, and_assoc]

theorem memErase_wf {m : Memory} (a : Nat) (h : Memory.wf m = true) : Memory.wf (memErase m a) = true := by
  induction m with
  | nil => rfl
  | cons c rest ih =>
    obtain ⟨hb, hlt, hr⟩ := (Memory.wf_cons c rest).mp h
    by_cases hk : c.1 = a
    · have : memErase (c :: rest) a = memErase rest a := by simp [memErase, hk]
      rw [this]; exact ih hr
    · have : memErase (c :: rest) a = c :: memErase rest a := by simp [memErase, hk]
      rw [this, Memory.wf_cons]
      exact ⟨hb, fun d hd => hlt d (List.mem_of_mem_filter hd), ih hr⟩

theorem mem_memInsert {m : Memory} {a : Nat} {b : Byte} {d : Host.Cell} (h : d ∈ memInsert m a b) :
    d = (a, b) ∨ d ∈ m := by
  induction m with
  | nil => exact .inl (by simpa [memInsert] using h)
  | cons c rest ih =>
    obtain ⟨k, v⟩ := c
    unfold memInsert at h
    split at h
    · simpa using h
    · rcases List.mem_cons.mp h with h | h
      · exact .inr (by simp [h])
      · rcases ih h with h | h
        · exact .inl h
        · exact .inr (by simp [h])

theorem memInsert_wf {m : Memory} {a : Nat} {b : Byte} (hb : b ≠ unlistedByte) (hm : Memory.wf m = true)
    (h : ∀ c ∈ m, c.1 ≠ a) : Memory.wf (memInsert m a b) = true := by
  induction m with
  | nil => simp [memInsert, Memory.wf, hb]
  | cons c rest ih =>
    obtain ⟨k, v⟩ := c
    obtain ⟨hv, hlt, hr⟩ := (Memory.wf_cons _ _).mp hm
    have hk : k ≠ a := h (k, v) (by simp)
    unfold memInsert
    split
    · next hak =>
      refine (Memory.wf_cons _ _).mpr ⟨hb, fun d hd => ?_, hm⟩
      rcases List.mem_cons.mp hd with rfl | hd
      · exact hak
      · exact lt_trans hak (hlt d hd)
    · next hak =>
      refine (Memory.wf_cons _ _).mpr ⟨hv, fun d hd => ?_, ih hr fun c hc => h c (by simp [hc])⟩
      rcases mem_memInsert hd with rfl | hd
      · show k < a; omega
      · exact hlt d hd

/-- Writing a byte keeps the canonical form. -/
theorem memWrite_wf {m : Memory} (a : Nat) (b : Byte) (h : Memory.wf m = true) : Memory.wf (memWrite m a b) = true := by
  unfold memWrite
  split
  · exact memErase_wf a h
  · next hb =>
    exact memInsert_wf hb (memErase_wf a h) fun c hc => by simpa [memErase] using (List.mem_filter.mp hc).2

/-- Writing a Word keeps the canonical form. -/
theorem writeWordAt_wf {m : Memory} (i : Nat) (w : Word) (h : Memory.wf m = true) :
    Memory.wf (writeWordAt m i w) = true :=
  memWrite_wf _ _ (memWrite_wf _ _ (memWrite_wf _ _ h))

/-- Writing a cell of a grid keeps the canonical form. -/
theorem Grid.setCell_wf {g : Grid} (c : Coord) (v : Word) (h : Memory.wf g.cells = true) :
    Memory.wf (g.setCell c v).cells = true := writeWordAt_wf _ v h

/-- The grid of a buffer is filled from an empty list, so it has the canonical form. -/
theorem fillWords_wf (ws : List Word) (i : Nat) {m : Memory} (h : Memory.wf m = true) :
    Memory.wf (fillWords m i ws) = true := by
  induction ws generalizing m i with
  | nil => exact h
  | cons w ws ih => exact ih (i + 1) (writeWordAt_wf i w h)

/-- The memory at reset has the canonical form: nothing is listed. -/
theorem reset_program_wf : Memory.wf State.reset.program.cells = true := rfl

/-- What a byte write lists: the new entry, or entries it had. -/
theorem mem_memWrite {m : Memory} {a : Nat} {b : Byte} {d : Host.Cell} (h : d ∈ memWrite m a b) :
    d.1 = a ∨ d ∈ m := by
  unfold memWrite at h
  split at h
  · exact .inr (List.mem_of_mem_filter h)
  · rcases mem_memInsert h with h | h
    · exact .inl (by simp [h])
    · exact .inr (List.mem_of_mem_filter h)

/-- What a Word write lists: entries of that cell, or entries it had. -/
theorem mem_writeWordAt {m : Memory} {i : Nat} {w : Word} {d : Host.Cell} (h : d ∈ writeWordAt m i w) :
    d.1 / 3 = i ∨ d ∈ m := by
  rcases mem_memWrite h with h | h
  · exact .inl (by omega)
  · rcases mem_memWrite h with h | h
    · exact .inl (by omega)
    · rcases mem_memWrite h with h | h
      · exact .inl (by omega)
      · exact .inr h

end Sys2Proof.Machine
end

