-- ==== Sys2Proof/Laws/Grid.lean ====
section
/-! SUPPORT. The laws of a grid: raster indices of in-bounds coordinates, cells after a store, and the bounds checks of `get`,
`set` and the fetch probe. -/

namespace Sys2Proof.Machine

@[simp] theorem Grid.setCell_width (g : Grid) (c : Coord) (v : Word) : (g.setCell c v).width = g.width := rfl
@[simp] theorem Grid.setCell_height (g : Grid) (c : Coord) (v : Word) : (g.setCell c v).height = g.height := rfl
@[simp] theorem Grid.inBounds_setCell (g : Grid) (c d : Coord) (v : Word) :
    (g.setCell c v).inBounds d = g.inBounds d := rfl
@[simp] theorem Grid.index_setCell (g : Grid) (c d : Coord) (v : Word) : (g.setCell c v).index d = g.index d := rfl

theorem Grid.inBounds_iff (g : Grid) (c : Coord) : g.inBounds c = true ↔ c.x < g.width ∧ c.y < g.height := by
  simp [Grid.inBounds]

/-- The raster index of an in-bounds coordinate is below the number of cells. -/
theorem Grid.index_lt {g : Grid} {c : Coord} (h : g.inBounds c = true) : g.index c < g.width * g.height := by
  obtain ⟨hx, hy⟩ := (g.inBounds_iff c).mp h
  unfold Grid.index
  calc c.y * g.width + c.x < c.y * g.width + g.width := by omega
    _ = (c.y + 1) * g.width := by ring
    _ ≤ g.height * g.width := Nat.mul_le_mul_right _ hy
    _ = g.width * g.height := Nat.mul_comm _ _

/-- Two in-bounds coordinates with one raster index are equal. -/
theorem Grid.index_inj {g : Grid} {c d : Coord} (hc : c.x < g.width) (hd : d.x < g.width)
    (h : g.index c = g.index d) : c = d := by
  obtain ⟨cx, cy⟩ := c
  obtain ⟨dx, dy⟩ := d
  simp only [Grid.index] at *
  have hy : cy = dy := by
    have h1 : (cy * g.width + cx) / g.width = cy := by
      rw [Nat.mul_comm, Nat.mul_add_div (by omega), Nat.div_eq_of_lt hc, Nat.add_zero]
    have h2 : (dy * g.width + dx) / g.width = dy := by
      rw [Nat.mul_comm, Nat.mul_add_div (by omega), Nat.div_eq_of_lt hd, Nat.add_zero]
    rw [← h1, ← h2, h]
  subst hy
  simp only [Coord.mk.injEq, and_true]
  omega

/-- The raster successor of a coordinate has the next raster index. -/
theorem Grid.index_nextPos (g : Grid) (c : Coord) :
    g.index (nextPos g.width c) = g.index c + 1 := by
  unfold nextPos Grid.index
  split
  · next h => simp only [Nat.add_mul]; omega
  · simp only; omega

/-- The successor's column is a column of the grid again. -/
theorem nextPos_x_lt {width : Nat} {c : Coord} (hc : c.x < width) : (nextPos width c).x < width := by
  unfold nextPos; split <;> simp only <;> omega

/-- With its column in the grid, a coordinate is in bounds exactly when its raster index is that of a cell. -/
theorem Grid.inBounds_iff_index {g : Grid} {c : Coord} (hc : c.x < g.width) :
    g.inBounds c = true ↔ g.index c < g.width * g.height := by
  refine ⟨Grid.index_lt, fun h => (g.inBounds_iff c).mpr ⟨hc, ?_⟩⟩
  by_contra hy
  have : g.width * g.height ≤ c.y * g.width := by
    rw [Nat.mul_comm]; exact Nat.mul_le_mul_right _ (by omega)
  unfold Grid.index at h
  omega

/-- Another cell reads as before. -/
theorem readWordAt_writeWordAt_ne (m : Memory) {i j : Nat} (w : Word) (h : j ≠ i) :
    readWordAt (writeWordAt m i w) j = readWordAt m j := by
  unfold readWordAt
  rw [memRead_writeWordAt_ne m w (by omega), memRead_writeWordAt_ne m w (by omega),
    memRead_writeWordAt_ne m w (by omega)]

/-- The three bytes of a Word, put together again, are the Word. -/
theorem ofBytes_bytes (w : Word) : ofBytes (byte0 w) (byte1 w) (byte2 w) = w := by
  apply BitVec.eq_of_getLsbD_eq
  intro i hi
  simp only [ofBytes, byte0, byte1, byte2, BitVec.getLsbD_append, BitVec.getLsbD_extractLsb']
  by_cases h1 : i < 8
  · simp [h1]
  · by_cases h2 : i < 16
    · have e : 8 + (i - 8) = i := by omega
      simp [h1, (by omega : i - 8 < 8), e]
    · have e : 16 + (i - 8 - 8) = i := by omega
      have h3 : ¬ i - 8 < 8 := by omega
      simp only [h1, h3, (by omega : i - 8 - 8 < 8), e, if_false, decide_true, Bool.true_and]

/-- The cell written reads as the Word written. -/
theorem readWordAt_writeWordAt_self (m : Memory) (i : Nat) (w : Word) : readWordAt (writeWordAt m i w) i = w := by
  unfold readWordAt
  rw [memRead_writeWordAt, memRead_writeWordAt, memRead_writeWordAt, if_neg (by omega), if_neg (by omega), if_pos rfl,
    if_neg (by omega), if_pos rfl, if_pos rfl]
  exact ofBytes_bytes w

/-- `get` answers the cell in bounds and AddressOutOfBounds elsewhere; it answers nothing else. -/
theorem Grid.get_cases (g : Grid) (c : Coord) :
    (g.inBounds c = true ∧ g.get c = .ok (g.cell c)) ∨
      (g.inBounds c = false ∧ g.get c = .error .addressOutOfBounds) := by
  unfold Grid.get; cases g.inBounds c <;> simp

/-- `set` answers the grid with that cell replaced in bounds and AddressOutOfBounds elsewhere; it answers nothing else. -/
theorem Grid.set_cases (g : Grid) (c : Coord) (v : Word) :
    (g.inBounds c = true ∧ g.set c v = .ok (g.setCell c v)) ∨
      (g.inBounds c = false ∧ g.set c v = .error .addressOutOfBounds) := by
  unfold Grid.set; cases g.inBounds c <;> simp

/-- The fetch probe answers the cell in bounds and nothing elsewhere. -/
theorem Grid.getChecked_cases (g : Grid) (c : Coord) :
    (g.inBounds c = true ∧ g.getChecked c = some (g.cell c)) ∨
      (g.inBounds c = false ∧ g.getChecked c = none) := by
  unfold Grid.getChecked; cases g.inBounds c <;> simp

/-- What it says that a grid is well formed. -/
theorem Grid.wf_iff (g : Grid) : g.wf = true ↔
    1 ≤ g.width ∧ g.width ≤ 4096 ∧ 1 ≤ g.height ∧ g.height ≤ 4096 ∧ Memory.wf g.cells = true ∧
      ∀ c ∈ g.cells, c.1 < 3 * (g.width * g.height) := by
  simp only [Grid.wf, Bool.and_eq_true, decide_eq_true_eq, List.all_eq_true, and_assoc]
  exact Iff.rfl

/-- What it says that a state is well formed. -/
theorem State.wf_iff (s : State) : s.wf = true ↔
    s.program.wf = true ∧ (∀ g, s.input = some g → g.wf = true) ∧
      ((s.output = none ∧ s.allocNext = 0) ∨
        (s.output = some (Grid.zero s.program.width s.program.height) ∧
          s.allocNext ≤ s.program.width * s.program.height)) := by
  unfold State.wf State.outputWf State.outputCap
  cases ho : s.output <;> cases hi : s.input <;> simp [and_assoc]

/-- A store keeps a grid well formed. -/
theorem Grid.wf_setCell {g : Grid} {c : Coord} (v : Word) (h : g.wf = true) (hc : g.inBounds c = true) :
    (g.setCell c v).wf = true := by
  have hi := Grid.index_lt hc
  simp only [Grid.wf, Bool.and_eq_true, decide_eq_true_eq, List.all_eq_true] at h ⊢
  obtain ⟨⟨hd, hm⟩, hk⟩ := h
  refine ⟨⟨hd, Grid.setCell_wf c v hm⟩, fun d hdm => ?_⟩
  rcases mem_writeWordAt hdm with e | hd'
  · simp only [Grid.setCell_width, Grid.setCell_height]; omega
  · exact hk d hd'

end Sys2Proof.Machine
end

