-- ==== Sys2Proof/Laws/MemCopy.lean ====
section
/-! SUPPORT. What the loop of MemCopy does to the grid whatever it answers: the dimensions stay, the grid stays well formed, and
its only error is AddressOutOfBounds. -/

namespace Sys2Proof.Machine

/-- The dimensions stay, and an error is AddressOutOfBounds. -/
theorem copyWords_dims (n : Nat) (src dst : Coord) (g : Grid) :
    (copyWords n src dst g).1.width = g.width ∧ (copyWords n src dst g).1.height = g.height ∧
      ((copyWords n src dst g).2 = none ∨ (copyWords n src dst g).2 = some .addressOutOfBounds) := by
  induction n generalizing src dst g with
  | zero => simp [copyWords]
  | succ n ih =>
    rcases g.get_cases src with ⟨_, hs⟩ | ⟨_, hs⟩
    · rcases g.set_cases dst (g.cell src) with ⟨_, hd⟩ | ⟨_, hd⟩
      · simpa [copyWords, hs, hd] using
          ih (nextPos g.width src) (nextPos g.width dst) (g.setCell dst (g.cell src))
      · simp [copyWords, hs, hd]
    · simp [copyWords, hs]

/-- A well-formed grid stays well formed. -/
theorem copyWords_wf (n : Nat) (src dst : Coord) {g : Grid} (h : g.wf = true) : (copyWords n src dst g).1.wf = true := by
  induction n generalizing src dst g with
  | zero => simpa [copyWords] using h
  | succ n ih =>
    rcases g.get_cases src with ⟨_, hs⟩ | ⟨_, hs⟩
    · rcases g.set_cases dst (g.cell src) with ⟨hb, hd⟩ | ⟨_, hd⟩
      · simpa [copyWords, hs, hd] using ih _ _ (Grid.wf_setCell (g.cell src) h hb)
      · simpa [copyWords, hs, hd] using h
    · simpa [copyWords, hs] using h

end Sys2Proof.Machine
end

