-- ==== Sys2Proof/Laws/State.lean ====
section
/-! SUPPORT. One lemma per field per update of `State`, and what the register accessors read after each, so that no later proof
unfolds a record update. -/

namespace Sys2Proof.Machine

section SetReg

variable (s : State) (i j : Nat) (v : Word)

@[simp] theorem State.setReg_stack : (s.setReg i v).stack = s.stack := rfl
@[simp] theorem State.setReg_runState : (s.setReg i v).runState = s.runState := rfl
@[simp] theorem State.setReg_program : (s.setReg i v).program = s.program := rfl
@[simp] theorem State.setReg_input : (s.setReg i v).input = s.input := rfl
@[simp] theorem State.setReg_output : (s.setReg i v).output = s.output := rfl
@[simp] theorem State.setReg_allocNext : (s.setReg i v).allocNext = s.allocNext := rfl

/-- A register read after a write: the Word written, if the index is that register's, else what it was. -/
theorem State.reg_setReg : (s.setReg i v).reg j = if j = i ∧ i < 32 then v else s.reg j := by
  unfold State.reg State.setReg
  by_cases hj : j < 32
  · by_cases hij : j = i
    · subst hij; simp [hj]
    · simp [hij, Ne.symm hij]
  · have h : ¬ (j = i ∧ i < 32) := fun h => hj (by omega)
    simp [h, hj]

@[simp] theorem State.reg_setReg_self (h : i < 32) : (s.setReg i v).reg i = v := by simp [State.reg_setReg, h]

@[simp] theorem State.reg_setReg_ne (h : j ≠ i) : (s.setReg i v).reg j = s.reg j := by simp [State.reg_setReg, h]

/-- The last of two writes to a register stands. -/
@[simp] theorem State.setReg_setReg (w : Word) : (s.setReg i v).setReg i w = s.setReg i w := by simp [State.setReg]

end SetReg

section Updates

variable (s : State) (v : Word) (k : ErrorKind)

@[simp] theorem State.halt_regs : s.halt.regs = s.regs := rfl
@[simp] theorem State.halt_stack : s.halt.stack = s.stack := rfl
@[simp] theorem State.halt_runState : s.halt.runState = .halted := rfl
@[simp] theorem State.halt_program : s.halt.program = s.program := rfl
@[simp] theorem State.halt_input : s.halt.input = s.input := rfl
@[simp] theorem State.halt_output : s.halt.output = s.output := rfl
@[simp] theorem State.halt_allocNext : s.halt.allocNext = s.allocNext := rfl

@[simp] theorem State.raise_regs : (s.raise k).regs = s.regs := rfl
@[simp] theorem State.raise_stack : (s.raise k).stack = s.stack := rfl
@[simp] theorem State.raise_runState : (s.raise k).runState = .faulted k := rfl
@[simp] theorem State.raise_program : (s.raise k).program = s.program := rfl
@[simp] theorem State.raise_input : (s.raise k).input = s.input := rfl
@[simp] theorem State.raise_output : (s.raise k).output = s.output := rfl
@[simp] theorem State.raise_allocNext : (s.raise k).allocNext = s.allocNext := rfl

@[simp] theorem State.push_regs : (s.push v).regs = s.regs := rfl
@[simp] theorem State.push_stack : (s.push v).stack = v :: s.stack := rfl
@[simp] theorem State.push_runState : (s.push v).runState = s.runState := rfl
@[simp] theorem State.push_program : (s.push v).program = s.program := rfl
@[simp] theorem State.push_input : (s.push v).input = s.input := rfl
@[simp] theorem State.push_output : (s.push v).output = s.output := rfl
@[simp] theorem State.push_allocNext : (s.push v).allocNext = s.allocNext := rfl

/-- A register depends on the register file alone. -/
theorem State.reg_congr {s t : State} (h : s.regs = t.regs) (i : Nat) : s.reg i = t.reg i := by
  unfold State.reg; rw [h]

@[simp] theorem State.reg_halt (i : Nat) : s.halt.reg i = s.reg i := rfl
@[simp] theorem State.reg_raise (i : Nat) : (s.raise k).reg i = s.reg i := rfl
@[simp] theorem State.reg_push (i : Nat) : (s.push v).reg i = s.reg i := rfl
@[simp] theorem State.reg_withProgram (g : Grid) (i : Nat) : State.reg { s with program := g } i = s.reg i := rfl
@[simp] theorem State.reg_withStack (st : List Word) (i : Nat) : State.reg { s with stack := st } i = s.reg i := rfl

@[simp] theorem State.orRaise_ok {α : Type} (a : α) (f : α → State) : s.orRaise (.ok a) f = f a := rfl
@[simp] theorem State.orRaise_error {α : Type} (f : α → State) : s.orRaise (.error k) f = s.raise k := rfl

end Updates

end Sys2Proof.Machine
end

