-- ==== Sys2Proof/Laws/Operands.lean ====
section
/-! SUPPORT. What each shared operation can do, said once: operand read and write, the target check, the advance, the stack, the
fetch, the step. -/

namespace Sys2Proof.Machine

/-- What `rd` can answer: the operand's Word when it resolves; else InvalidRegister for an index above 31, and
AddressOutOfBounds for a dereference outside `program`. -/
theorem State.rd_cases (s : State) (o : Operand) :
    (s.resolves o = true ∧ s.rd o = .ok (s.valueOf o)) ∨
    (s.resolves o = false ∧ o.idx < 32 ∧ o.deref = true ∧ s.rd o = .error .addressOutOfBounds) ∨
    (s.resolves o = false ∧ ¬ o.idx < 32 ∧ s.rd o = .error .invalidRegister) := by
  obtain ⟨d, i⟩ := o
  by_cases hi : i < 32
  · have hi' : i ≤ 31 := by omega
    cases d
    · left; simp [State.rd, State.readReg, State.resolves, State.valueOf, hi, hi']
    · rcases s.program.get_cases (toAddress (s.reg i)) with ⟨hb, hg⟩ | ⟨hb, hg⟩
      · left; simp [State.rd, State.readReg, State.memRead1, State.resolves, State.valueOf, hi, hi', hb, hg]
      · right; left; simp [State.rd, State.readReg, State.memRead1, State.resolves, hi, hi', hb, hg]
  · have hi' : ¬ i ≤ 31 := by omega
    right; right; simp [State.rd, State.readReg, State.resolves, hi, hi']

/-- What `wr` can answer: the Word stored where the operand denotes when it resolves; else an error, as `rd`. -/
theorem State.wr_cases (s : State) (o : Operand) (v : Word) :
    (s.resolves o = true ∧ s.wr o v = .ok (s.stored o v)) ∨
    (s.resolves o = false ∧ o.idx < 32 ∧ o.deref = true ∧ s.wr o v = .error .addressOutOfBounds) ∨
    (s.resolves o = false ∧ ¬ o.idx < 32 ∧ s.wr o v = .error .invalidRegister) := by
  obtain ⟨d, i⟩ := o
  by_cases hi : i < 32
  · have hi' : i ≤ 31 := by omega
    cases d
    · left; simp [State.wr, State.writeReg, State.resolves, State.stored, hi, hi']
    · rcases s.program.set_cases (toAddress (s.reg i)) v with ⟨hb, hg⟩ | ⟨hb, hg⟩
      · left; simp [State.wr, State.readReg, State.memWrite1, State.resolves, State.stored, hi, hi', hb, hg]
      · right; left; simp [State.wr, State.readReg, State.memWrite1, State.resolves, hi, hi', hb, hg]
  · have hi' : ¬ i ≤ 31 := by omega
    right; right
    cases d <;> simp [State.wr, State.readReg, State.writeReg, State.resolves, hi, hi']

theorem State.rd_of_resolves {s : State} {o : Operand} (h : s.resolves o = true) : s.rd o = .ok (s.valueOf o) := by
  rcases s.rd_cases o with ⟨_, e⟩ | ⟨hn, _⟩ | ⟨hn, _⟩
  · exact e
  · rw [h] at hn; cases hn
  · rw [h] at hn; cases hn

theorem State.wr_of_resolves {s : State} {o : Operand} (v : Word) (h : s.resolves o = true) :
    s.wr o v = .ok (s.stored o v) := by
  rcases s.wr_cases o v with ⟨_, e⟩ | ⟨hn, _⟩ | ⟨hn, _⟩
  · exact e
  · rw [h] at hn; cases hn
  · rw [h] at hn; cases hn

/-- The write that ends an instruction: stored and advanced, or the error of the write. -/
theorem State.wrAdvance_of_resolves {s : State} {o : Operand} (v : Word) (h : s.resolves o = true) :
    s.wrAdvance o v = (s.stored o v).advance := by
  simp [State.wrAdvance, State.wr_of_resolves v h]

/-- What the target check can answer: the target Word in bounds, or an error and no Word. -/
theorem State.target_cases (s : State) (o : Operand) :
    (s.resolves o = true ∧ s.program.inBounds (toAddress (s.valueOf o)) = true ∧ s.target o = .ok (s.valueOf o)) ∨
    ((s.resolves o = false ∨ s.program.inBounds (toAddress (s.valueOf o)) = false) ∧
      (s.target o = .error .addressOutOfBounds ∨ (¬ o.idx < 32 ∧ s.target o = .error .invalidRegister))) := by
  rcases s.rd_cases o with ⟨hr, e⟩ | ⟨hr, _, _, e⟩ | ⟨hr, hi, e⟩
  · cases hb : s.program.inBounds (toAddress (s.valueOf o)) <;> simp [State.target, e, hb, hr]
  · right; simp [State.target, e, hr]
  · right; exact ⟨.inl hr, .inr ⟨hi, by simp [State.target, e]⟩⟩

/-- What the advance can do: set the IP to the raster successor, or halt; nothing else. -/
theorem State.advance_cases (s : State) :
    (representable (nextPos s.program.width s.ip) = true ∧
      s.advance = s.setReg 31 (fromAddress (nextPos s.program.width s.ip))) ∨
    (representable (nextPos s.program.width s.ip) = false ∧ s.advance = s.halt) := by
  unfold State.advance
  cases h : representable (nextPos s.program.width s.ip)
  · exact .inr ⟨rfl, by simp [h]⟩
  · exact .inl ⟨rfl, by simp [h]⟩

@[simp] theorem State.advance_stack (s : State) : s.advance.stack = s.stack := by
  rcases s.advance_cases with ⟨_, e⟩ | ⟨_, e⟩ <;> rw [e] <;> rfl
@[simp] theorem State.advance_program (s : State) : s.advance.program = s.program := by
  rcases s.advance_cases with ⟨_, e⟩ | ⟨_, e⟩ <;> rw [e] <;> rfl
@[simp] theorem State.advance_input (s : State) : s.advance.input = s.input := by
  rcases s.advance_cases with ⟨_, e⟩ | ⟨_, e⟩ <;> rw [e] <;> rfl
@[simp] theorem State.advance_output (s : State) : s.advance.output = s.output := by
  rcases s.advance_cases with ⟨_, e⟩ | ⟨_, e⟩ <;> rw [e] <;> rfl
@[simp] theorem State.advance_allocNext (s : State) : s.advance.allocNext = s.allocNext := by
  rcases s.advance_cases with ⟨_, e⟩ | ⟨_, e⟩ <;> rw [e] <;> rfl

/-- The advance changes no register but the IP. -/
theorem State.reg_advance_ne (s : State) {r : Nat} (h : r ≠ 31) : s.advance.reg r = s.reg r := by
  rcases s.advance_cases with ⟨_, e⟩ | ⟨_, e⟩ <;> rw [e]
  · exact State.reg_setReg_ne s 31 r _ h
  · rfl

/-- The advance of a Running machine leaves it Running or Halted. -/
theorem State.advance_runState (s : State) : s.advance.runState = s.runState ∨ s.advance.runState = .halted := by
  rcases s.advance_cases with ⟨_, e⟩ | ⟨_, e⟩ <;> rw [e]
  · exact .inl rfl
  · exact .inr rfl

/-- A Word stored in register 31 and the advance after it: what `continuedAfter` says. -/
theorem State.advance_stored_ip (s : State) (v : Word) : (s.stored ⟨false, 31⟩ v).advance = s.continuedAfter v := by
  have hip : (s.setReg 31 v).ip = toAddress v := by simp [State.ip, State.pc]
  simp [State.stored, State.advance, State.continuedAfter, State.halt, hip]

section Stored

variable (s : State) (o : Operand) (v : Word)

@[simp] theorem State.stored_stack : (s.stored o v).stack = s.stack := by unfold State.stored; split <;> rfl
@[simp] theorem State.stored_runState : (s.stored o v).runState = s.runState := by unfold State.stored; split <;> rfl
@[simp] theorem State.stored_input : (s.stored o v).input = s.input := by unfold State.stored; split <;> rfl
@[simp] theorem State.stored_output : (s.stored o v).output = s.output := by unfold State.stored; split <;> rfl
@[simp] theorem State.stored_allocNext : (s.stored o v).allocNext = s.allocNext := by unfold State.stored; split <;> rfl
@[simp] theorem State.stored_width : (s.stored o v).program.width = s.program.width := by
  unfold State.stored; split <;> rfl
@[simp] theorem State.stored_height : (s.stored o v).program.height = s.program.height := by
  unfold State.stored; split <;> rfl

end Stored

/-- What `pop` can answer: StackUnderflow on an empty stack, else the top and the rest. -/
theorem State.pop_cases (s : State) :
    (s.stack = [] ∧ s.pop = .error .stackUnderflow) ∨
    ∃ v rest, s.stack = v :: rest ∧ s.pop = .ok (v, { s with stack := rest }) := by
  unfold State.pop
  cases h : s.stack with
  | nil => left; simp
  | cons v rest => right; exact ⟨v, rest, rfl, rfl⟩

/-- What a step can do: a named fault in a stopped machine; Halted at the end of the raster; else the effect of the fetched
instruction. -/
theorem step_cases (s : State) :
    (s.runState = .halted ∧ step s = .fault .runHalted) ∨
    (∃ k, s.runState = .faulted k ∧ step s = .fault (.runFaulted k)) ∨
    (s.runState = .running ∧ s.program.inBounds s.ip = false ∧ step s = .next s.halt) ∨
    (s.runState = .running ∧ s.program.inBounds s.ip = true ∧ step s = exec (decodeWord (s.program.cell s.ip)) s) := by
  unfold step State.fetch
  cases hr : s.runState with
  | halted => left; exact ⟨rfl, rfl⟩
  | faulted k => right; left; exact ⟨k, rfl, rfl⟩
  | running =>
    rcases s.program.getChecked_cases s.ip with ⟨hb, e⟩ | ⟨hb, e⟩
    · right; right; right; simp [hb, e]
    · right; right; left; simp [hb, e]

end Sys2Proof.Machine
end

