-- ==== Sys2Proof/Laws/Exec.lean ====
section
/-! SUPPORT. What an instruction can do, said once: `exec_effect` gives the few shapes every next state has, so that a frame or an
invariant is a case analysis of `Effect` and never unfolds the meanings again. -/

namespace Sys2Proof.Machine

@[simp] theorem State.materialize_regs (s : State) : s.materialize.regs = s.regs := by
  unfold State.materialize; split <;> rfl
@[simp] theorem State.materialize_stack (s : State) : s.materialize.stack = s.stack := by
  unfold State.materialize; split <;> rfl
@[simp] theorem State.materialize_runState (s : State) : s.materialize.runState = s.runState := by
  unfold State.materialize; split <;> rfl
@[simp] theorem State.materialize_program (s : State) : s.materialize.program = s.program := by
  unfold State.materialize; split <;> rfl
@[simp] theorem State.materialize_input (s : State) : s.materialize.input = s.input := by
  unfold State.materialize; split <;> rfl
@[simp] theorem State.materialize_allocNext (s : State) : s.materialize.allocNext = s.allocNext := by
  unfold State.materialize; split <;> rfl

/-- `output` after materialization: what it was when present, else a zero grid of the dimensions of `program`. -/
theorem State.materialize_output (s : State) :
    s.materialize.output = some (s.output.getD (Grid.zero s.program.width s.program.height)) := by
  unfold State.materialize; split
  · next h => simp [h]
  · next h => simp [h]

/-- The states an instruction with a destination writes from: the state before it, without the top of the stack for Pop, with
`output` present and the reservation made for Alloc. -/
inductive WritesFrom (i : Instr) (s : State) : State → Prop where
  | same : WritesFrom i s s
  | popped (r : Operand) (v : Word) (rest : List Word) : i = .pop r → s.stack = v :: rest →
      WritesFrom i s { s with stack := rest }
  | reserved (size dst : Operand) (n : Nat) : i = .alloc size dst → s.allocNext + n ≤ s.outputCap →
      WritesFrom i s { s.materialize with allocNext := s.allocNext + n }

/-- Every shape of a next state. -/
inductive Effect (i : Instr) (s : State) : State → Prop where
  | raised (k : ErrorKind) : Effect i s (s.raise k)
  | noRoom (size dst : Operand) : i = .alloc size dst → Effect i s (s.materialize.raise .addressOutOfBounds)
  | wrote (b : State) (d : Operand) (v : Word) : i.dest = some d → WritesFrom i s b → b.resolves d = true →
      Effect i s (b.stored d v).advance
  | writeRaised (b : State) (d : Operand) (k : ErrorKind) : i.dest = some d → WritesFrom i s b → b.resolves d = false →
      Effect i s (b.raise k)
  | copied (dst src len : Operand) : i = .memCopy dst src len → s.resolves dst = true → s.resolves src = true →
      s.resolves len = true →
      Effect i s (s.copyAdvance (toAddress (s.valueOf dst)) (toAddress (s.valueOf src)) (s.valueOf len).toNat)
  | pushed (r : Operand) : i = .push r → Effect i s (s.push (s.valueOf r)).advance
  | notTaken (c t : Operand) : i = .jumpIf c t ∨ i = .callIf c t → Effect i s s.advance
  | jumped (c t : Operand) : i = .jump t ∨ i = .jumpIf c t → Effect i s (s.redirect (s.valueOf t))
  | called (c t : Operand) (r : Word) : i = .call t ∨ i = .callIf c t → s.returnAddress = .ok r →
      Effect i s ((s.push r).redirect (s.valueOf t))
  | returned (v : Word) (rest : List Word) : i = .ret → s.stack = v :: rest →
      Effect i s (State.redirect { s with stack := rest } v)
  | halted : i = .halt → Effect i s s.halt

/-- The write that ends an instruction, as an effect. -/
theorem Effect.of_wrAdvance {i : Instr} {s b : State} {d : Operand} (v : Word) (hd : i.dest = some d)
    (hb : WritesFrom i s b) : Effect i s (b.wrAdvance d v) := by
  rcases b.wr_cases d v with ⟨hr, e⟩ | ⟨hr, _, _, e⟩ | ⟨hr, _, e⟩
  · simpa [State.wrAdvance, e] using Effect.wrote b d v hd hb hr
  · simpa [State.wrAdvance, e] using Effect.writeRaised b d .addressOutOfBounds hd hb hr
  · simpa [State.wrAdvance, e] using Effect.writeRaised b d .invalidRegister hd hb hr

/-- Going on after an operation that may fail, as an effect. -/
theorem Effect.of_orRaise {i : Instr} {s : State} {α : Type} (r : Except ErrorKind α) (k : α → State)
    (h : ∀ a, r = .ok a → Effect i s (k a)) : Effect i s (s.orRaise r k) := by
  cases r with
  | ok a => exact h a rfl
  | error e => exact .raised e

theorem State.valueOf_of_rd {s : State} {o : Operand} {w : Word} (h : s.rd o = .ok w) :
    s.resolves o = true ∧ w = s.valueOf o := by
  rcases s.rd_cases o with ⟨hr, e⟩ | ⟨_, _, _, e⟩ | ⟨_, _, e⟩
  · rw [e] at h; exact ⟨hr, by injection h with h; exact h.symm⟩
  · rw [e] at h; cases h
  · rw [e] at h; cases h

theorem State.valueOf_of_target {s : State} {o : Operand} {w : Word} (h : s.target o = .ok w) : w = s.valueOf o := by
  rcases s.target_cases o with ⟨_, _, e⟩ | ⟨_, e | ⟨_, e⟩⟩ <;> rw [e] at h
  · injection h with h; exact h.symm
  · cases h
  · cases h

/-- An ALU instruction, as an effect. -/
theorem Effect.of_alu {i : Instr} {s : State} (f : Word → Word → Except ErrorKind Word) {dst : Operand} (a b : Operand)
    (hd : i.dest = some dst) : Effect i s (s.alu f dst a b) :=
  .of_orRaise _ _ fun _ _ => .of_orRaise _ _ fun _ _ => .of_orRaise _ _ fun v _ => .of_wrAdvance v hd .same

/-- A checked transfer, as an effect. -/
theorem Effect.of_jumpTo {i : Instr} {s : State} (c t : Operand) (h : i = .jump t ∨ i = .jumpIf c t) :
    Effect i s (s.jumpTo t) :=
  .of_orRaise _ _ fun w hw => by rw [State.valueOf_of_target hw]; exact .jumped c t h

/-- A checked call, as an effect. -/
theorem Effect.of_callTo {i : Instr} {s : State} (c t : Operand) (h : i = .call t ∨ i = .callIf c t) :
    Effect i s (s.callTo t) :=
  .of_orRaise _ _ fun w hw => .of_orRaise _ _ fun r hr => by
    rw [State.valueOf_of_target hw]; exact .called c t r h hr

/-- Every next state an instruction answers has one of the shapes of `Effect`. -/
theorem exec_effect {i : Instr} {s t : State} (h : exec i s = .next t) : Effect i s t := by
  cases i with
  | loadLow r imm => injection h with h; subst h; exact .of_orRaise _ _ fun _ _ => .of_wrAdvance _ rfl .same
  | loadHigh r imm => injection h with h; subst h; exact .of_orRaise _ _ fun _ _ => .of_wrAdvance _ rfl .same
  | move dst src => injection h with h; subst h; exact .of_orRaise _ _ fun _ _ => .of_wrAdvance _ rfl .same
  | add dst a b => injection h with h; subst h; exact .of_alu _ a b rfl
  | subtract dst a b => injection h with h; subst h; exact .of_alu _ a b rfl
  | multiply dst a b => injection h with h; subst h; exact .of_alu _ a b rfl
  | divide dst a b => injection h with h; subst h; exact .of_alu _ a b rfl
  | modulo dst a b => injection h with h; subst h; exact .of_alu _ a b rfl
  | bitAnd dst a b => injection h with h; subst h; exact .of_alu _ a b rfl
  | bitOr dst a b => injection h with h; subst h; exact .of_alu _ a b rfl
  | equal dst a b => injection h with h; subst h; exact .of_alu _ a b rfl
  | notEqual dst a b => injection h with h; subst h; exact .of_alu _ a b rfl
  | greaterThan dst a b => injection h with h; subst h; exact .of_alu _ a b rfl
  | lessThan dst a b => injection h with h; subst h; exact .of_alu _ a b rfl
  | greaterThanEqual dst a b => injection h with h; subst h; exact .of_alu _ a b rfl
  | lessThanEqual dst a b => injection h with h; subst h; exact .of_alu _ a b rfl
  | alloc size dst =>
    injection h with h; subst h
    refine .of_orRaise _ _ fun n _ => ?_
    unfold State.allocate
    split
    · exact .noRoom size dst rfl
    · next hf => exact .of_wrAdvance _ rfl (.reserved size dst n.toNat rfl (by omega))
  | memCopy dst src len =>
    injection h with h; subst h
    refine .of_orRaise _ _ fun dw hdw => .of_orRaise _ _ fun sw hsw => .of_orRaise _ _ fun n hn => ?_
    obtain ⟨h1, rfl⟩ := State.valueOf_of_rd hdw
    obtain ⟨h2, rfl⟩ := State.valueOf_of_rd hsw
    obtain ⟨h3, rfl⟩ := State.valueOf_of_rd hn
    exact .copied dst src len rfl h1 h2 h3
  | currAddress dst => injection h with h; subst h; exact .of_wrAdvance _ rfl .same
  | jump target => injection h with h; subst h; exact .of_jumpTo target target (.inl rfl)
  | call target => injection h with h; subst h; exact .of_callTo target target (.inl rfl)
  | jumpIf cond target =>
    injection h with h; subst h
    refine .of_orRaise _ _ fun c _ => ?_
    split
    · exact .of_jumpTo cond target (.inr rfl)
    · exact .notTaken cond target (.inl rfl)
  | callIf cond target =>
    injection h with h; subst h
    refine .of_orRaise _ _ fun c _ => ?_
    split
    · exact .of_callTo cond target (.inr rfl)
    · exact .notTaken cond target (.inr rfl)
  | ret =>
    injection h with h; subst h
    rcases s.pop_cases with ⟨_, e⟩ | ⟨v, rest, hs, e⟩
    · rw [e]; exact .raised _
    · rw [e]; exact .returned v rest rfl hs
  | push r =>
    injection h with h; subst h
    refine .of_orRaise _ _ fun v hv => ?_
    obtain ⟨_, rfl⟩ := State.valueOf_of_rd hv
    exact .pushed r rfl
  | pop r =>
    injection h with h; subst h
    rcases s.pop_cases with ⟨_, e⟩ | ⟨v, rest, hs, e⟩
    · rw [e]; exact .raised _
    · rw [e]; exact .of_wrAdvance v rfl (.popped r v rest rfl hs)
  | halt => injection h with h; subst h; exact .halted rfl

/-- What MemCopy does to the state after its operands are read: `program` is replaced by a grid of the same dimensions, and the
instruction advances or raises AddressOutOfBounds. -/
theorem State.copyAdvance_cases (s : State) (dst src : Coord) (n : Nat) :
    ∃ g : Grid, g = (copyWords n src dst s.program).1 ∧ g.width = s.program.width ∧ g.height = s.program.height ∧
      (s.copyAdvance dst src n = State.advance { s with program := g } ∨
        s.copyAdvance dst src n = State.raise { s with program := g } .addressOutOfBounds) := by
  obtain ⟨hw, hh, he⟩ := copyWords_dims n src dst s.program
  refine ⟨_, rfl, hw, hh, ?_⟩
  unfold State.copyAdvance
  rcases he with he | he
  · left; split
    · next h => rw [h]
    · next h => rw [h] at he; cases he
  · right; split
    · next h => rw [h] at he; cases he
    · next h => rw [h] at he; injection he with he; subst he; rw [h]

end Sys2Proof.Machine
end

