-- ==== Sys2Proof/Laws/PerInstr.lean ====
section
/-! SUPPORT. A family of facts stated per instruction: its canonical Word carries its own opcode (spec/30_encoding.md R84, R96). -/

namespace Sys2Proof.Laws.CanonicalOpcode

/-- The canonical Word's raw opcode is the instruction's reduced opcode, and is its own reduction. -/
def Statement (i : Instr) : Prop :=
  (rawOpcode (encode i)).toNat = i.opcode ∧ reducedOpcode (encode i) = i.opcode

theorem of_opcode (i : Instr) (h : i.opcode < 27) : Statement i := by
  have e : (rawOpcode (encode i)).toNat = i.opcode := by
    unfold encode encodeAs
    rw [rawOpcode_packWord, BitVec.toNat_ofNat]
    exact Nat.mod_eq_of_lt (by omega)
  exact ⟨e, by unfold reducedOpcode; rw [e]; exact Nat.mod_eq_of_lt h⟩

theorem loadLow (r : Operand) (imm : BitVec 6) : Statement (.loadLow r imm) := of_opcode _ (by simp [Instr.opcode])
theorem loadHigh (r : Operand) (imm : BitVec 6) : Statement (.loadHigh r imm) := of_opcode _ (by simp [Instr.opcode])
theorem move (dst src : Operand) : Statement (.move dst src) := of_opcode _ (by simp [Instr.opcode])
theorem add (dst a b : Operand) : Statement (.add dst a b) := of_opcode _ (by simp [Instr.opcode])
theorem subtract (dst a b : Operand) : Statement (.subtract dst a b) := of_opcode _ (by simp [Instr.opcode])
theorem multiply (dst a b : Operand) : Statement (.multiply dst a b) := of_opcode _ (by simp [Instr.opcode])
theorem divide (dst a b : Operand) : Statement (.divide dst a b) := of_opcode _ (by simp [Instr.opcode])
theorem modulo (dst a b : Operand) : Statement (.modulo dst a b) := of_opcode _ (by simp [Instr.opcode])
theorem bitAnd (dst a b : Operand) : Statement (.bitAnd dst a b) := of_opcode _ (by simp [Instr.opcode])
theorem bitOr (dst a b : Operand) : Statement (.bitOr dst a b) := of_opcode _ (by simp [Instr.opcode])
theorem equal (dst a b : Operand) : Statement (.equal dst a b) := of_opcode _ (by simp [Instr.opcode])
theorem notEqual (dst a b : Operand) : Statement (.notEqual dst a b) := of_opcode _ (by simp [Instr.opcode])
theorem greaterThan (dst a b : Operand) : Statement (.greaterThan dst a b) := of_opcode _ (by simp [Instr.opcode])
theorem lessThan (dst a b : Operand) : Statement (.lessThan dst a b) := of_opcode _ (by simp [Instr.opcode])
theorem greaterThanEqual (dst a b : Operand) : Statement (.greaterThanEqual dst a b) := of_opcode _ (by simp [Instr.opcode])
theorem lessThanEqual (dst a b : Operand) : Statement (.lessThanEqual dst a b) := of_opcode _ (by simp [Instr.opcode])
theorem alloc (size dst : Operand) : Statement (.alloc size dst) := of_opcode _ (by simp [Instr.opcode])
theorem memCopy (dst src len : Operand) : Statement (.memCopy dst src len) := of_opcode _ (by simp [Instr.opcode])
theorem currAddress (dst : Operand) : Statement (.currAddress dst) := of_opcode _ (by simp [Instr.opcode])
theorem jump (target : Operand) : Statement (.jump target) := of_opcode _ (by simp [Instr.opcode])
theorem call (target : Operand) : Statement (.call target) := of_opcode _ (by simp [Instr.opcode])
theorem jumpIf (cond target : Operand) : Statement (.jumpIf cond target) := of_opcode _ (by simp [Instr.opcode])
theorem callIf (cond target : Operand) : Statement (.callIf cond target) := of_opcode _ (by simp [Instr.opcode])
theorem ret : Statement (.ret) := of_opcode _ (by simp [Instr.opcode])
theorem push (r : Operand) : Statement (.push r) := of_opcode _ (by simp [Instr.opcode])
theorem pop (r : Operand) : Statement (.pop r) := of_opcode _ (by simp [Instr.opcode])
theorem halt : Statement (.halt) := of_opcode _ (by simp [Instr.opcode])

end Sys2Proof.Laws.CanonicalOpcode
end

