-- ==== Sys2Proof/Tests/Slice0.lean ====
section
/-! SUPPORT. Tests of the model on fixed values, and a witness for the hypotheses of each obligation. Expected values are those of
spec/95_test_vectors.md (its vector ids V<n> stand in the comments) or are worked out by hand from the rule named. -/

namespace Sys2Proof.Tests

open Sys2Proof.Machine

/-- `rN`, a direct operand. -/
abbrev r (n : Nat) : Operand := ⟨false, n⟩

/-- `*rN`, a dereferenced operand. -/
abbrev d (n : Nat) : Operand := ⟨true, n⟩

/-! ### Well-formedness: each operand position refuses an index of 32 -/

theorem test_wf_refuses_field_a : (Instr.wf (.push (r 32))) = false := by decide
theorem test_wf_refuses_field_b : (Instr.wf (.move (r 0) (d 32))) = false := by decide
theorem test_wf_refuses_field_c : (Instr.wf (.add (r 0) (r 1) (d 32))) = false := by decide

/-- One ill-formed term for each instruction that has an operand. -/
theorem test_wf_refuses_each_instruction :
    ([Instr.loadLow (r 32) 0,
      .loadHigh (r 32) 0,
      .move (r 32) (r 0),
      .add (r 0) (r 32) (r 0),
      .subtract (r 32) (r 0) (r 0),
      .multiply (r 0) (r 0) (r 32),
      .divide (r 0) (r 32) (r 0),
      .modulo (r 32) (r 0) (r 0),
      .bitAnd (r 0) (r 0) (r 32),
      .bitOr (r 0) (r 32) (r 0),
      .equal (r 32) (r 0) (r 0),
      .notEqual (r 0) (r 0) (r 32),
      .greaterThan (r 0) (r 32) (r 0),
      .lessThan (r 32) (r 0) (r 0),
      .greaterThanEqual (r 0) (r 0) (r 32),
      .lessThanEqual (r 0) (r 32) (r 0),
      .alloc (r 0) (r 32),
      .memCopy (r 0) (r 0) (r 32),
      .currAddress (r 32),
      .jump (r 32),
      .call (r 32),
      .jumpIf (r 0) (r 32),
      .callIf (r 32) (r 0),
      .push (r 32),
      .pop (r 32)] : List Instr).all (fun i => !i.wf) = true := by
  decide

theorem test_wf_accepts_the_highest_index : Instr.wf (.add (d 31) (r 31) (d 0)) = true := by decide
theorem test_wf_accepts_no_operands : Instr.wf .ret = true ∧ Instr.wf .halt = true := by decide

/-! ### Decoding: one Word for each instruction, its bits written out from 30_encoding.md R82 to R89, as raw opcode (6 bits), then the
fields A, B, C (6 bits each: dereference bit, then index) -/

theorem test_decode_load_low : decodeWord 0b000000_000000_101010_111111 = .loadLow (r 0) 42 := by decide
theorem test_decode_load_high : decodeWord 0b011100_110101_100110_000001 = .loadHigh (d 21) 38 := by decide
theorem test_decode_move : decodeWord 0b000010_000010_100110_001001 = .move (r 2) (d 6) := by decide
theorem test_decode_add : decodeWord 0b000011_000011_110001_010110 = .add (r 3) (d 17) (r 22) := by decide
theorem test_decode_subtract : decodeWord 0b011111_111110_000001_000010 = .subtract (d 30) (r 1) (r 2) := by decide
theorem test_decode_multiply : decodeWord 0b000101_000101_000110_100111 = .multiply (r 5) (r 6) (d 7) := by decide
theorem test_decode_divide : decodeWord 0b000110_111111_110000_101000 = .divide (d 31) (d 16) (d 8) := by decide
theorem test_decode_modulo : decodeWord 0b100010_000100_000010_000001 = .modulo (r 4) (r 2) (r 1) := by decide
theorem test_decode_bit_and : decodeWord 0b001000_010101_101010_100101 = .bitAnd (r 21) (d 10) (d 5) := by decide
theorem test_decode_bit_or : decodeWord 0b001001_100001_000010_100100 = .bitOr (d 1) (r 2) (d 4) := by decide
theorem test_decode_equal : decodeWord 0b100101_001000_010000_011111 = .equal (r 8) (r 16) (r 31) := by decide
theorem test_decode_not_equal : decodeWord 0b001011_101001_100110_000011 = .notEqual (d 9) (d 6) (r 3) := by decide
theorem test_decode_greater_than : decodeWord 0b001100_001100_011000_110001 = .greaterThan (r 12) (r 24) (d 17) := by decide
theorem test_decode_less_than : decodeWord 0b101000_000111_101110_011100 = .lessThan (r 7) (d 14) (r 28) := by decide
theorem test_decode_greater_than_equal : decodeWord 0b001110_111001_010011_001011 = .greaterThanEqual (d 25) (r 19) (r 11) := by decide
theorem test_decode_less_than_equal : decodeWord 0b001111_011111_000000_111111 = .lessThanEqual (r 31) (r 0) (d 31) := by decide
theorem test_decode_alloc : decodeWord 0b101011_000001_100010_000101 = .alloc (r 1) (d 2) := by decide
theorem test_decode_mem_copy : decodeWord 0b010001_100010_000001_100011 = .memCopy (d 2) (r 1) (d 3) := by decide
theorem test_decode_curr_address : decodeWord 0b010010_100111_000001_000010 = .currAddress (d 7) := by decide
theorem test_decode_jump : decodeWord 0b101110_101010_000011_000100 = .jump (d 10) := by decide
theorem test_decode_call : decodeWord 0b010100_001010_100011_000100 = .call (r 10) := by decide
theorem test_decode_jump_if : decodeWord 0b010101_000001_100101_111111 = .jumpIf (r 1) (d 5) := by decide
theorem test_decode_call_if : decodeWord 0b110001_100001_000101_111111 = .callIf (d 1) (r 5) := by decide
theorem test_decode_ret : decodeWord 0b010111_000001_001000_110100 = .ret := by decide
theorem test_decode_push : decodeWord 0b011000_100110_000001_000001 = .push (d 6) := by decide
theorem test_decode_pop : decodeWord 0b110100_011111_100001_000001 = .pop (r 31) := by decide
theorem test_decode_halt : decodeWord 0b011010_111111_111111_111111 = .halt := by decide

/-- Every instruction of the table's order, by the opcode alone: raw opcodes 0 to 26 with zero fields decode to distinct instructions whose
opcode is the raw one (R84). -/
theorem test_decode_order :
    ((List.range 27).map fun k => (decodeWord (BitVec.ofNat 24 (k * 262144))).opcode) = List.range 27 := by decide

/-- V18, V19, V20, V21: aliases. -/
theorem test_decode_aliases :
    decodeWord 0x783042 = .add (r 3) (r 1) (r 2) ∧ decodeWord 0xE43042 = .add (r 3) (r 1) (r 2) ∧
    decodeWord 0x6C0A80 = .loadLow (r 0) 42 ∧ decodeWord 0xD80A80 = .loadLow (r 0) 42 := by decide

/-- V12, V16, V25: the highest Word, and bits that are ignored. -/
theorem test_decode_corner_words :
    decodeWord 0xFFFFFF = .bitOr (d 31) (d 31) (d 31) ∧ decodeWord 0xD7FFFF = .halt ∧ decodeWord 0xC81234 = .ret := by decide

/-- Three bytes are one instruction, byte0 first (R59, R80); two are none. -/
theorem test_decode_bytes :
    decodeBytes [0x0C, 0x30, 0x42, 0x68] = .ok (.add (r 3) (r 1) (r 2), [0x68]) ∧
    decodeBytes [0x0C, 0x30] = .error .truncated := by
  constructor <;> rfl

/-- The encoding checks of 95_test_vectors.md section 2.2. -/
theorem test_encode_words :
    encode (.add (r 3) (r 1) (r 2)) = 0x0C3042 ∧ encode (.jumpIf (r 1) (r 5)) = 0x541140 ∧
    encode (.move (r 2) (d 6)) = 0x082980 ∧ encode .halt = 0x680000 := by decide

/-- Rows of spec/opcode_table.json: Add, its alias of raw opcode 57, Halt's alias of raw opcode 53. -/
theorem test_decode_table_words :
    decodeTableWord 24 0x0C3042 = some (.add (r 3) (r 1) (r 2)) ∧
    decodeTableWord 24 0xE40000 = some (.add (r 0) (r 0) (r 0)) ∧ decodeTableWord 24 0xD40000 = some .halt := by decide

/-! ### One step -/

/-- A machine of `w`×`h` Words, the given ones first and the rest zero, with the given registers set. -/
def machine (w h : Nat) (words : List Word) (regs : List (Nat × Word)) : State :=
  regs.foldl (fun s p => s.setReg p.1 p.2) { State.reset with program := ⟨w, h, fillWords [] 0 words⟩ }

/-- The same machine with the IP at (x, y). -/
def placed (s : State) (x y : Nat) : State := s.setReg 31 (fromAddress ⟨x, y⟩)

/-- One step of the Word `v` placed where the next step fetches, and what `f` shows of the next state. -/
def after {α : Type} (v : Word) (s : State) (f : State → α) : Option α :=
  match step (s.withFetchWord 24 v.toNat) with
  | .next t => some (f t)
  | .fault _ => none
  | .refused _ => none


/-- V33, V39: the old low bits go, in a register and in a cell. -/
theorem test_step_load_low :
    after 0x004FC0 (machine 4 1 [] [(4, 0xABCDEF)]) (fun t => (t.reg 4, t.ip)) = some (0xABC03F, ⟨1, 0⟩) := by decide
theorem test_step_load_high_cell :
    after 0x066140 (machine 4 1 [0, 0, 0, 0xABCDEF] [(6, 0x003000)]) (fun t => (t.program.cell ⟨3, 0⟩, t.reg 6)) =
      some (0x005DEF, 0x003000) := by decide

/-- V97: LoadHigh into register 31, then the advance. -/
theorem test_step_load_high_ip : after 0x05F140 (placed (machine 8 1 [] []) 2 0) State.ip = some ⟨6, 0⟩ := by decide

/-- V44: memory to memory. -/
theorem test_step_move_cell_to_cell :
    after 0x0A7980 (machine 4 1 [0, 0, 0, 0x123456] [(6, 0x003000), (7, 0x002000)])
      (fun t => (t.program.cell ⟨2, 0⟩, t.program.cell ⟨3, 0⟩)) = some (0x123456, 0x123456) := by decide

/-- V94: a direct write to register 31 is not checked. -/
theorem test_step_move_to_ip :
    after 0x09F140 (machine 8 1 [] [(5, 0x000005)]) (fun t => (t.ip, t.runState)) = some (⟨1, 5⟩, .running) := by decide

/-- V45: a source outside the grid. -/
theorem test_step_move_bad_source :
    after 0x082980 (machine 4 1 [] [(6, 0x004000)]) (fun t => (t.reg 2, t.ip, t.runState)) =
      some (0, ⟨0, 0⟩, .faulted .addressOutOfBounds) := by decide

/-- The row `0xABCDEF, 0x00FF0F` of the table of section 2.5: the thirteen results. -/
def aluRow (a b : Word) (words : List Word) : List (Option Word) :=
  words.map fun v => after v (machine 1 1 [] [(1, a), (2, b), (3, 0x777777)]) (fun t => t.reg 3)

theorem test_step_add_and_subtract :
    aluRow 0xABCDEF 0x00FF0F [0x0C3042, 0x103042] = [some 0xACCCFE, some 0xAACEE0] := by decide
theorem test_step_multiply_keeps_low_bits :
    aluRow 0xABCDEF 0x00FF0F [0x143042] = [some 0x322201] ∧ aluRow 0x800000 0x7FFFFF [0x143042] = [some 0x800000] := by
  decide
theorem test_step_divide_and_modulo :
    aluRow 0xABCDEF 0x00FF0F [0x183042, 0x1C3042] = [some 0x0000AC, some 0x006FDB] := by decide
theorem test_step_and_or : aluRow 0xABCDEF 0x00FF0F [0x203042, 0x243042] = [some 0x00CD0F, some 0xABFFEF] := by decide

/-- Unsigned comparison, `0x800000` against `0x7FFFFF`. -/
theorem test_step_comparisons_unsigned :
    aluRow 0x800000 0x7FFFFF [0x283042, 0x2C3042, 0x303042, 0x343042, 0x383042, 0x3C3042] =
      [some 0, some 1, some 1, some 0, some 1, some 0] := by decide

/-- The comparisons of equal Scalars. -/
theorem test_step_comparisons_equal :
    aluRow 5 5 [0x283042, 0x2C3042, 0x303042, 0x343042, 0x383042, 0x3C3042] =
      [some 1, some 0, some 0, some 0, some 1, some 1] := by decide

/-- V50: the destination is both sources. -/
theorem test_step_add_same_register : after 0x0C1041 (machine 1 1 [] [(1, 9)]) (fun t => t.reg 1) = some 0x12 := by decide

/-- V103. -/
theorem test_step_divide_by_zero :
    after 0x183042 (machine 4 1 [] [(1, 5), (3, 0x777777)]) (fun t => (t.reg 3, t.runState)) =
      some (0x777777, .faulted .arithmeticFault) := by decide

/-- V100: the sources are resolved before the divisor is examined. -/
theorem test_step_divide_source_first :
    after 0x183842 (machine 2 1 [] [(1, 0x005000)]) State.runState = some (.faulted .addressOutOfBounds) := by decide

/-- V55: the second Alloc of three Words. -/
theorem test_step_alloc :
    after 0x401080 { machine 4 2 [] [(1, 3)] with output := some ⟨4, 2, []⟩, allocNext := 3 }
      (fun t => (t.reg 2, t.allocNext)) = some (0x003000, 6) := by decide

/-- V59: `output` is materialized before the error. -/
theorem test_step_alloc_no_room :
    after 0x401080 (machine 4 2 [] [(1, 9)]) (fun t => (t.output, t.allocNext, t.runState)) =
      some (some ⟨4, 2, []⟩, 0, .faulted .addressOutOfBounds) := by decide

/-- V64: both ranges cross row ends. -/
theorem test_step_mem_copy :
    after 0x442043 (machine 3 3 [0, 0, 0x11, 0x22, 0x33] [(1, 0x002000), (2, 0x002001), (3, 3)])
      (fun t => t.program.buffer.words) = some [0x442043, 0, 0x11, 0x22, 0x33, 0x11, 0x22, 0x33, 0] := by decide

/-- V62: a forward overlap replicates. -/
theorem test_step_mem_copy_overlap :
    after 0x442043 (machine 8 1 [0, 0, 0xA, 0xB, 0xC] [(1, 0x002000), (2, 0x003000), (3, 3)])
      (fun t => t.program.buffer.words) = some [0x442043, 0, 0xA, 0xA, 0xA, 0xA, 0, 0] := by decide

/-- V71, V71b. -/
theorem test_step_curr_address :
    after 0x487000 (placed (machine 4 2 [] []) 2 1) (fun t => (t.reg 7, t.ip)) = some (0x002001, ⟨3, 1⟩) := by decide
theorem test_step_curr_address_ip : after 0x49F000 (placed (machine 8 1 [] []) 2 0) State.ip = some ⟨3, 0⟩ := by decide

/-- V73, V74. -/
theorem test_step_jump :
    after 0x4C5000 (machine 8 1 [] [(5, 0x003000)]) (fun t => (t.ip, t.stack)) = some (⟨3, 0⟩, []) := by decide
theorem test_step_jump_bad_target :
    after 0x4C1000 (machine 2 1 [] [(1, 1)]) State.runState = some (.faulted .addressOutOfBounds) := by decide

/-- V72, V86. -/
theorem test_step_call :
    after 0x50A000 (placed (machine 4 4 [] [(10, 2)]) 3 0) (fun t => (t.stack, t.ip)) = some ([1], ⟨0, 2⟩) := by decide
theorem test_step_call_last_row :
    after 0x501000 (placed (machine 1 4096 [] []) 0 4095) (fun t => (t.stack, t.runState)) =
      some ([], .faulted .addressOutOfBounds) := by decide

/-- V81, V82. -/
theorem test_step_jump_if_taken :
    after 0x541140 (machine 8 1 [] [(1, 0x800000), (5, 0x003000)]) State.ip = some ⟨3, 0⟩ := by decide
theorem test_step_jump_if_not_taken :
    after 0x541940 (machine 2 1 [] [(5, 0xFFFFFF)]) (fun t => (t.ip, t.runState)) = some (⟨1, 0⟩, .running) := by decide

/-- V84, V85. -/
theorem test_step_call_if_taken :
    after 0x581140 (placed (machine 8 1 [] [(1, 1), (5, 0x006000)]) 2 0) (fun t => (t.stack, t.ip)) =
      some ([0x003000], ⟨6, 0⟩) := by decide
theorem test_step_call_if_not_taken :
    after 0x581140 (placed (machine 8 1 [] [(5, 0x006000)]) 2 0) (fun t => (t.stack, t.ip)) = some ([], ⟨3, 0⟩) := by decide

/-- V76 (the stack is written top first here), V77. -/
theorem test_step_return :
    after 0x5C0000 { machine 4 4 [] [] with stack := [1, 9] } (fun t => (t.stack, t.ip)) = some ([9], ⟨0, 1⟩) := by decide
theorem test_step_return_empty : after 0x5C0000 (machine 1 1 [] []) State.runState = some (.faulted .stackUnderflow) := by
  decide

/-- V89b, V89d: Push of a cell, Push of its own address. -/
theorem test_step_push_cell :
    after 0x626000 (machine 4 1 [0, 0, 0, 0x123456] [(6, 0x003000)]) State.stack = some [0x123456] := by decide
theorem test_step_push_ip :
    after 0x61F000 (placed (machine 8 1 [] []) 3 0) (fun t => (t.stack, t.ip)) = some ([0x003000], ⟨4, 0⟩) := by decide

/-- V89c, V101: Pop to a cell, and the pop before the write. -/
theorem test_step_pop_cell :
    after 0x666000 { machine 4 1 [] [(6, 0x003000)] with stack := [0x00BEEF] } (fun t => (t.program.cell ⟨3, 0⟩, t.stack)) =
      some (0x00BEEF, []) := by decide
theorem test_step_pop_empty_first :
    after 0x661000 (machine 2 1 [] [(1, 0x005000)]) State.runState = some (.faulted .stackUnderflow) := by decide

/-- V88. -/
theorem test_step_halt :
    after 0x680000 (placed (machine 2 2 [] []) 1 1) (fun t => (t.ip, t.runState)) = some (⟨1, 1⟩, .halted) := by decide

/-- V90, V92: the advance at the end of a row, and where the successor fits no Word. -/
theorem test_step_advance_row_end : after 0x080000 (placed (machine 3 2 [] []) 2 0) State.ip = some ⟨0, 1⟩ := by decide
theorem test_step_advance_last_row :
    after 0x080000 (placed (machine 1 4096 [] []) 0 4095) (fun t => (t.pc, t.runState)) = some (0x000FFF, .halted) := by decide

/-- V99: a fetch outside the grid halts. -/
theorem test_step_fetch_outside :
    step (placed (machine 3 2 [] []) 0 2) = .next { placed (machine 3 2 [] []) 0 2 with runState := .halted } := by rfl

/-- R25: the register file refuses an index above 31, which no decoded instruction holds. -/
theorem test_register_file_guard :
    State.reset.readReg 32 = .error .invalidRegister ∧ State.reset.writeReg 32 1 = .error .invalidRegister ∧
    State.reset.readReg 31 = .ok 0 := by
  refine ⟨?_, ?_, ?_⟩ <;> rfl

/-- S7: a 1×1 image of Halt. -/
theorem test_run_halt_image :
    (match launch ⟨1, 1, [0x680000]⟩ none with
      | .ok s => runFor 2 s
      | .error _ => .didNotFinish) = .halted ⟨1, 1, [0x680000]⟩ none := by decide

/-- S9: a 5000×10 image is rejected before any instruction executes. -/
theorem test_launch_oversized : launch ⟨5000, 10, []⟩ none = .error (.fatal .oversizedImage) := by rfl

/-! ### Reset and the host's way in -/

theorem test_withFetchWord_at_reset :
    (State.reset.withFetchWord 24 0x0C3042).fetch = some 0x0C3042 ∧ (State.reset.withFetchWord 24 0x0C3042).wf = true := by
  decide

theorem test_core_step : Sys2Proof.core.step = step ∧ Sys2Proof.core.reset = State.reset := ⟨rfl, rfl⟩

/-! ### Witnesses: for each obligation with hypotheses, a concrete state and operands that meet all of them, at the boundary of each
clause -/

/-- A 4×2 machine that the witnesses share: r1 addresses the last cell, r2 the first column outside, r3 the first row outside, r4 is 5,
r5 the first cell, r6 is 1, r7 is 9, the cell (2,0) holds `0x000123`, and one Word is on the stack. -/
def demo : State :=
  { machine 4 2 [0, 0, 0x000123] [(1, 0x003001), (2, 0x004000), (3, 0x000002), (4, 5), (6, 1), (7, 9)] with stack := [0x001001] }

theorem demo_wf : demo.wf = true ∧ demo.runState = .running := by decide

/-- `demo` with the IP outside the grid, in the first row after it. -/
def outside : State := placed demo 0 2

/-- The last cell of a grid of the greatest height. -/
def lastRow : State := placed (machine 1 4096 [] [(1, 0x000FFF)]) 0 4095

theorem witness_AddressCodecRoundTrips : (4095 < 4096 ∧ 0 < 4096) ∧
    toAddress (fromAddress ⟨4095, 0⟩) = ⟨4095, 0⟩ ∧ toAddress (fromAddress ⟨0, 4095⟩) = ⟨0, 4095⟩ := by decide

theorem witness_DecodeOfEveryEncoding :
    Instr.wf (.add (d 31) (r 0) (r 31)) = true ∧ (57#6).toNat % 27 = Instr.opcode (.add (d 31) (r 0) (r 31)) ∧
    Instr.wf .halt = true ∧ (53#6).toNat % 27 = Instr.opcode .halt := by decide

theorem witness_DecodeBytesConsumesOneWord : ([] : List Byte).length < 3 ∧ ([0x0C, 0x30] : List Byte).length < 3 := by decide

theorem witness_StepKeepsTheInvariant : demo.wf = true ∧ ∃ t, step demo = .next t := ⟨by decide, _, rfl⟩

theorem witness_LaunchGivesTheResetStateOfTheImage :
    (∃ s, launch ⟨1, 1, [0x680000]⟩ (some ⟨1, 1, [7]⟩) = .ok s) ∧ 0 < 1 := ⟨⟨_, rfl⟩, by decide⟩

theorem witness_LaunchRejectsOversizedImages :
    launch ⟨4097, 1, []⟩ none = .error (.fatal .oversizedImage) ∧
    launch ⟨1, 1, [0]⟩ (some ⟨1, 4097, []⟩) = .error (.fatal .oversizedImage) ∧
    launch ⟨4096, 0, []⟩ none = .error .zeroDimension ∧ launch ⟨1, 2, [0]⟩ none = .error .wrongLength ∧
    ∃ s, launch ⟨1, 2, [0, 1]⟩ none = .ok s := ⟨rfl, rfl, rfl, rfl, _, rfl⟩

theorem witness_StepRunsTheFetchedInstruction :
    (outside.runState = .running ∧ outside.program.inBounds (toAddress (outside.reg 31)) = false) ∧
    (demo.runState = .running ∧ demo.program.inBounds (toAddress (demo.reg 31)) = true ∧
      decodeWord (demo.program.cell (toAddress (demo.reg 31))) = .loadLow (r 0) 0) ∧
    lastRow.program.inBounds (toAddress (lastRow.reg 31)) = true := by decide

theorem witness_StoppedMachineTakesNoStep :
    demo.halt.runState = .halted ∧ (demo.raise .stackUnderflow).runState = .faulted .stackUnderflow := by decide

theorem witness_RunResultIsStableInTheStepBound :
    2 ≤ 3 ∧ runFor 2 outside ≠ .didNotFinish ∧ (demo.raise .stackUnderflow).runState = .faulted .stackUnderflow := by decide

theorem witness_MemoryReadAfterWrite :
    demo.program.inBounds (toAddress 0x004000) = false ∧ demo.program.inBounds (toAddress 0x000002) = false ∧
    demo.program.inBounds (toAddress 0x003001) = true ∧ (0x002001 : Word) ≠ 0x003001 ∧
    6 * 3 / 3 ≠ demo.program.index (toAddress 0x003001) := by decide

theorem witness_OperandReadResolves : (d 31).idx < 32 ∧ (r 0).idx < 32 ∧ demo.fetch = some 0 := by decide

theorem witness_OperandWriteStores :
    ((r 31).idx < 32 ∧ (r 31).deref = false) ∧
    ((d 2).idx < 32 ∧ (d 2).deref = true ∧ demo.program.inBounds (toAddress (demo.reg 2)) = false) ∧
    ((d 1).idx < 32 ∧ (d 1).deref = true ∧ demo.program.inBounds (toAddress (demo.reg 1)) = true ∧
      (0x002001 : Word) ≠ demo.reg 1) := by decide

theorem witness_StackIsLastInFirstOut : demo.stack ≠ [] ∧ State.reset.stack = [] := by decide

theorem witness_AdvanceFollowsRasterOrder :
    (demo.program.inBounds demo.ip = true ∧ demo.program.width ≤ 4096 ∧ demo.ip.x + 1 < demo.program.width) ∧
    ((placed demo 3 1).program.inBounds (placed demo 3 1).ip = true ∧
      (placed demo 3 1).ip.x + 1 = (placed demo 3 1).program.width ∧ (placed demo 3 1).ip.y < 4095) ∧
    (lastRow.program.inBounds lastRow.ip = true ∧ lastRow.program.width ≤ 4096 ∧
      lastRow.ip.x + 1 = lastRow.program.width ∧ lastRow.ip.y = 4095) := by decide

theorem witness_AdvanceFromOutsideEndsTheRun :
    outside.runState = .running ∧ outside.program.inBounds outside.ip = false ∧
    (placed demo 4095 4095).program.inBounds (placed demo 4095 4095).ip = false := by decide

theorem witness_LoadImmediateCompletes : demo.resolves (d 1) = true ∧ demo.resolves (r 31) = true := by decide

theorem witness_MoveCompletes : demo.resolves (d 5) = true ∧ demo.resolves (r 31) = true := by decide

theorem witness_ArithmeticCompletes :
    demo.resolves (d 1) = true ∧ demo.resolves (r 4) = true ∧ demo.resolves (r 31) = true := by decide

theorem witness_DivisionCompletes :
    demo.resolves (r 7) = true ∧ demo.resolves (r 4) = true ∧ demo.resolves (d 1) = true ∧ demo.valueOf (r 4) ≠ 0#24 ∧
    demo.resolves (r 6) = true ∧ demo.valueOf (r 6) ≠ 0#24 := by decide

theorem witness_BitwiseCompletes :
    demo.resolves (r 1) = true ∧ demo.resolves (r 7) = true ∧ demo.resolves (d 5) = true := by decide

theorem witness_ComparisonsComplete :
    demo.resolves (r 4) = true ∧ demo.resolves (r 4) = true ∧ demo.resolves (d 1) = true := by decide

/-- The size 8 fills the grid exactly: 3 in use and 5 asked. -/
theorem witness_AllocCompletes :
    State.resolves { demo with allocNext := 3 } (r 4) = true ∧ State.resolves { demo with allocNext := 3 } (d 1) = true ∧
    3 + (State.valueOf { demo with allocNext := 3 } (r 4)).toNat ≤ demo.program.width * demo.program.height := by decide

theorem witness_AllocThatDoesNotFitFaults :
    demo.resolves (r 7) = true ∧ demo.program.width * demo.program.height < demo.allocNext + (demo.valueOf (r 7)).toNat := by
  decide

theorem witness_AllocBaseIsTheNextFreeCell :
    State.wf { demo with output := some ⟨4, 2, []⟩, allocNext := 7 } = true ∧
    7 < demo.program.width * demo.program.height := by decide

/-- Two Words from (2,0) to the end of the grid, over the row end. -/
def copying : State := machine 4 2 [0, 0, 0x000123] [(1, 0x002000), (2, 0x002001), (3, 2), (6, 3)]

theorem witness_MemCopyCopiesForward :
    (copying.resolves (r 2) = true ∧ copying.resolves (r 1) = true ∧ copying.resolves (r 3) = true) ∧
    copying.program.inBounds (toAddress (copying.valueOf (r 1))) = true ∧
    copying.program.inBounds (toAddress (copying.valueOf (r 2))) = true ∧
    copying.program.index (toAddress (copying.valueOf (r 1))) + (copying.valueOf (r 3)).toNat ≤
      copying.program.width * copying.program.height ∧
    copying.program.index (toAddress (copying.valueOf (r 2))) + (copying.valueOf (r 3)).toNat =
      copying.program.width * copying.program.height ∧
    1 < (copying.valueOf (r 3)).toNat ∧
    copying.program.index (toAddress (copying.valueOf (r 1))) < copying.program.index (toAddress (copying.valueOf (r 2))) ∧
    17 / 3 < copying.program.index (toAddress (copying.valueOf (r 2))) := by decide

theorem witness_MemCopyOfNoWordsOnlyAdvances :
    demo.resolves (r 2) = true ∧ demo.resolves (r 3) = true ∧ demo.resolves (r 5) = true ∧ demo.valueOf (r 5) = 0#24 := by
  decide

theorem witness_MemCopyPastTheGridFaults :
    (demo.resolves (r 1) = true ∧ demo.resolves (r 2) = true ∧ demo.resolves (r 6) = true ∧ demo.valueOf (r 6) ≠ 0#24 ∧
      demo.program.inBounds (toAddress (demo.valueOf (r 2))) = false) ∧
    (copying.resolves (r 2) = true ∧ copying.resolves (r 1) = true ∧ copying.resolves (r 6) = true ∧
      copying.valueOf (r 6) ≠ 0#24 ∧ copying.program.inBounds (toAddress (copying.valueOf (r 2))) = true ∧
      copying.program.width * copying.program.height + 1 =
        copying.program.index (toAddress (copying.valueOf (r 2))) + (copying.valueOf (r 6)).toNat) := by decide

theorem witness_CurrAddressCompletes : demo.resolves (r 31) = true ∧ demo.resolves (d 1) = true := by decide

theorem witness_JumpsComplete :
    (demo.resolves (r 1) = true ∧ demo.program.inBounds (toAddress (demo.valueOf (r 1))) = true) ∧
    (demo.resolves (r 6) = true ∧ demo.valueOf (r 6) ≠ 0#24) ∧ (demo.resolves (r 5) = true ∧ demo.valueOf (r 5) = 0#24) := by
  decide

theorem witness_CallsComplete :
    (demo.resolves (r 1) = true ∧ demo.program.inBounds (toAddress (demo.valueOf (r 1))) = true ∧
      (nextPos demo.program.width demo.ip).y ≤ 4095) ∧
    (demo.resolves (r 6) = true ∧ demo.valueOf (r 6) ≠ 0#24) ∧ (demo.resolves (r 5) = true ∧ demo.valueOf (r 5) = 0#24) ∧
    (nextPos (placed lastRow 0 4094).program.width (placed lastRow 0 4094).ip).y = 4095 := by decide

theorem witness_BadTransfersFault :
    (demo.resolves (r 2) = true ∧ demo.program.inBounds (toAddress (demo.valueOf (r 2))) = false ∧
      demo.resolves (r 6) = true ∧ demo.valueOf (r 6) ≠ 0#24) ∧
    (lastRow.resolves (r 1) = true ∧ lastRow.program.inBounds (toAddress (lastRow.valueOf (r 1))) = true ∧
      4095 < (nextPos lastRow.program.width lastRow.ip).y ∧ lastRow.resolves (r 1) = true ∧ lastRow.valueOf (r 1) ≠ 0#24) := by
  decide

theorem witness_ReturnCompletes : demo.stack = 0x001001 :: [] := by decide

theorem witness_CallThenReturnRestoresTheSuccessor :
    (demo.runState = .running ∧ demo.program.inBounds demo.ip = true ∧ demo.program.width ≤ 4096) ∧
    ∃ t u, exec (.call (r 1)) demo = .next t ∧ t.runState = .running ∧ exec .ret t = .next u :=
  ⟨by decide, _, _, rfl, rfl, rfl⟩

theorem witness_HaltEndsTheRun :
    decodeWord 0x680000 = .halt ∧ decodeWord 0x6BFFFF = .halt ∧ decodeWord 0xD40000 = .halt ∧ decodeWord 0xD7FFFF = .halt ∧
    decodeWord 0x67FFFF ≠ .halt ∧ decodeWord 0x6C0000 ≠ .halt ∧ decodeWord 0xD3FFFF ≠ .halt ∧ decodeWord 0xD80000 ≠ .halt := by
  decide

theorem witness_PushAndPopComplete : demo.resolves (d 1) = true ∧ demo.stack = 0x001001 :: [] := by decide

theorem witness_DivisionByZeroFaults :
    (demo.resolves (r 4) = true ∧ demo.resolves (r 5) = true ∧ demo.valueOf (r 5) = 0#24) ∧
    ((d 2).idx < 32 ∧ (r 5).idx < 32 ∧ (demo.resolves (d 2) && demo.resolves (r 5)) = false) := by decide

theorem witness_EmptyStackFaults : State.reset.stack = [] := by decide

/-- `*r2` does not resolve, r4 and r6 resolve to nonzero Words, and the Alloc of the second Operand fills the grid exactly. -/
theorem witness_UnresolvedOperandsFault :
    (d 2).wf = true ∧ demo.resolves (d 2) = false ∧ (demo.resolves (r 4) = true ∧ demo.valueOf (r 4) ≠ 0#24) ∧
    (demo.resolves (r 6) = true ∧ demo.valueOf (r 6) ≠ 0#24) ∧
    (State.resolves { demo with allocNext := 3 } (d 2) = false ∧ State.resolves { demo with allocNext := 3 } (r 4) = true ∧
      3 + (State.valueOf { demo with allocNext := 3 } (r 4)).toNat = demo.program.width * demo.program.height) ∧
    demo.stack = 0x001001 :: [] := by decide

theorem witness_InstructionsRaiseOnlyTheirErrors :
    (Instr.wf (.move (r 0) (d 2)) = true ∧ demo.runState = .running ∧
      ∃ t, exec (.move (r 0) (d 2)) demo = .next t ∧ t.runState = .faulted .addressOutOfBounds) ∧
    (∃ t, exec .ret State.reset = .next t ∧ t.runState = .faulted .stackUnderflow) ∧
    ∃ t, exec (.divide (r 0) (r 4) (r 5)) demo = .next t ∧ t.runState = .faulted .arithmeticFault :=
  ⟨⟨by decide, rfl, _, rfl, rfl⟩, ⟨_, rfl, rfl⟩, _, rfl, rfl⟩

theorem witness_RaisingLeavesRegisters :
    demo.runState = .running ∧ ∃ t, exec (.pop (d 2)) demo = .next t ∧ t.runState = .faulted .addressOutOfBounds :=
  ⟨rfl, _, rfl, rfl⟩

theorem witness_OnlyTheDestinationRegisterChanges :
    (∃ t, exec (.add (r 0) (r 4) (r 7)) demo = .next t) ∧ 30 ≠ 31 ∧ Instr.dest (.add (r 0) (r 4) (r 7)) ≠ some (r 30) :=
  ⟨⟨_, rfl⟩, by decide, by decide⟩

theorem witness_NextIpIsTheRasterSuccessor :
    (demo.runState = .running ∧ ∃ t, exec (.move (r 30) (r 4)) demo = .next t) ∧
    Instr.transfers (.move (r 30) (r 4)) = false ∧ Instr.dest (.move (r 30) (r 4)) ≠ some (r 31) ∧
    (lastRow.runState = .running ∧ ∃ t, exec (.move (r 30) (r 4)) lastRow = .next t ∧ t.runState = .halted) :=
  ⟨⟨rfl, _, rfl⟩, by decide, by decide, rfl, _, rfl, rfl⟩

/-- The successor is representable from r3 = (0,2), and is not from the last Word of a 1-wide grid, (0,4095). -/
theorem witness_WritingRegister31ContinuesAtTheSuccessor :
    (demo.resolves (r 3) = true ∧ demo.resolves (r 4) = true ∧ demo.valueOf (r 4) ≠ 0#24 ∧ demo.stack = 0x001001 :: [] ∧
      representable (nextPos demo.program.width (toAddress (demo.valueOf (r 3)))) = true) ∧
    (State.resolves { demo with allocNext := 3 } (r 4) = true ∧
      3 + (State.valueOf { demo with allocNext := 3 } (r 4)).toNat = demo.program.width * demo.program.height) ∧
    (lastRow.resolves (r 1) = true ∧
      representable (nextPos lastRow.program.width (toAddress (lastRow.valueOf (r 1)))) = false) := by decide

theorem witness_ProgramUnchangedWithoutAStore :
    (∃ t, exec (.push (d 1)) demo = .next t) ∧ Instr.dest (.push (d 1)) = none ∧
    (∀ dst src len, Instr.push (d 1) ≠ .memCopy dst src len) ∧ (∃ t, exec (.pop (r 0)) demo = .next t) ∧ Instr.dest (.pop (r 0)) = some (r 0) ∧ (r 0).deref = false :=
  ⟨⟨_, rfl⟩, rfl, fun _ _ _ => Instr.noConfusion, ⟨_, rfl⟩, rfl, rfl⟩

theorem witness_StoreChangesOnlyItsCell :
    (∃ t, exec (.move (d 1) (r 4)) demo = .next t) ∧ Instr.dest (.move (d 1) (r 4)) = some (d 1) ∧ (d 1).deref = true ∧
    20 / 3 ≠ demo.cellIndex (d 1) ∧ 21 / 3 = demo.cellIndex (d 1) :=
  ⟨⟨_, rfl⟩, rfl, rfl, by decide, by decide⟩

theorem witness_MemCopyStoresOnlyItsRange :
    (∃ t, exec (.memCopy (r 2) (r 1) (r 3)) copying = .next t) ∧
    17 / 3 < copying.program.index (toAddress (copying.valueOf (r 2))) ∧
    copying.program.index (toAddress (copying.valueOf (r 2))) + (copying.valueOf (r 3)).toNat ≤ 24 / 3 :=
  ⟨⟨_, rfl⟩, by decide, by decide⟩

theorem witness_OnlyTheTopOfTheStackChanges : ∃ t, exec (.push (r 4)) demo = .next t := ⟨_, rfl⟩

theorem witness_OnlyAllocTouchesOutput :
    (∃ t, exec (.push (r 4)) { demo with output := some ⟨4, 2, []⟩ } = .next t) ∧ ∀ size dst, Instr.push (r 4) ≠ .alloc size dst :=
  ⟨⟨_, rfl⟩, fun _ _ => Instr.noConfusion⟩

theorem witness_OutputContentsHaveNoEffect :
    (State.output { demo with output := some ⟨4, 2, []⟩ }) = some ⟨4, 2, []⟩ := rfl

theorem witness_WrittenWordIsFetched :
    demo.runState = .running ∧ ∃ t, demo.memWrite1 0x003001 0x680000 = .ok t := ⟨rfl, _, rfl⟩

end Sys2Proof.Tests
end

/-! PROOFS. The Word/Address codec and the memory accesses `MemRead` and `MemWrite` (spec/20_memory.md R51, R56, R57). -/

namespace Sys2Proof.Machine

/-! ### The codec, in arithmetic -/

/-- The column is the high 12 bits of the Word. -/
theorem toAddress_x (w : Word) : (toAddress w).x = w.toNat / 4096 := by
  have hw := w.isLt
  simp only [toAddress, BitVec.extractLsb'_toNat, Nat.shiftRight_eq_div_pow]
  omega

/-- The row is the low 12 bits of the Word. -/
theorem toAddress_y (w : Word) : (toAddress w).y = w.toNat % 4096 := by
  simp [toAddress, BitVec.extractLsb'_toNat]

theorem toAddress_x_lt (w : Word) : (toAddress w).x < 4096 := by
  have hw := w.isLt
  rw [toAddress_x]
  omega

theorem toAddress_y_lt (w : Word) : (toAddress w).y < 4096 := by
  rw [toAddress_y]
  exact Nat.mod_lt _ (by decide)

/-- The number a coordinate is encoded as; a component that fits no 12 bits is cut. -/
theorem toNat_fromAddress (c : Coord) : (fromAddress c).toNat = c.x % 4096 * 4096 + c.y % 4096 := by
  have hy : c.y % 2 ^ 12 < 2 ^ 12 := Nat.mod_lt _ (by decide)
  rw [fromAddress, BitVec.toNat_append, BitVec.toNat_ofNat, BitVec.toNat_ofNat, ← Nat.shiftLeft_add_eq_or_of_lt hy,
    Nat.shiftLeft_eq]
  norm_num

/-- Decoding a coordinate that fits a Word gives it back. -/
theorem toAddress_fromAddress {c : Coord} (hx : c.x < 4096) (hy : c.y < 4096) : toAddress (fromAddress c) = c := by
  have hn : (fromAddress c).toNat = c.x * 4096 + c.y := by
    rw [toNat_fromAddress, Nat.mod_eq_of_lt hx, Nat.mod_eq_of_lt hy]
  have ex : (toAddress (fromAddress c)).x = c.x := by rw [toAddress_x, hn]; omega
  have ey : (toAddress (fromAddress c)).y = c.y := by rw [toAddress_y, hn]; omega
  exact congrArg₂ Coord.mk ex ey

/-- Encoding the coordinate of a Word gives the Word back. -/
theorem fromAddress_toAddress (w : Word) : fromAddress (toAddress w) = w := by
  apply BitVec.eq_of_toNat_eq
  have hx := toAddress_x_lt w
  rw [toNat_fromAddress, Nat.mod_eq_of_lt hx, toAddress_x, toAddress_y]
  omega

/-- Two Words with one coordinate are equal. -/
theorem toAddress_injective : Function.Injective toAddress :=
  Function.LeftInverse.injective fromAddress_toAddress

/-! ### The bytes of a Word, in arithmetic -/

theorem toNat_byte0 (w : Word) : (byte0 w).toNat = w.toNat / 65536 := by
  have hw := w.isLt
  simp only [byte0, BitVec.extractLsb'_toNat, Nat.shiftRight_eq_div_pow]
  omega

theorem toNat_byte1 (w : Word) : (byte1 w).toNat = w.toNat / 256 % 256 := by
  simp [byte1, BitVec.extractLsb'_toNat, Nat.shiftRight_eq_div_pow]

theorem toNat_byte2 (w : Word) : (byte2 w).toNat = w.toNat % 256 := by
  simp [byte2, BitVec.extractLsb'_toNat]

/-- The Address layout (R51): byte0 is the top 8 bits of `x`, byte1 the low 4 bits of `x` and the top 4 bits of `y`, byte2
the low 8 bits of `y`. -/
theorem bytes_of_address (w : Word) :
    (byte0 w).toNat = (toAddress w).x / 16 ∧
      (byte1 w).toNat = (toAddress w).x % 16 * 16 + (toAddress w).y / 256 ∧
      (byte2 w).toNat = (toAddress w).y % 256 := by
  rw [toNat_byte0, toNat_byte1, toNat_byte2, toAddress_x, toAddress_y]
  omega

/-- Settles O1: both inverses and the layout by arithmetic on the Word's value, the bytes by `ofBytes_bytes`, and the worked
example of R51 by evaluation. -/
theorem addressCodecRoundTrips : Obligations.AddressCodecRoundTrips :=
  ⟨fun _ _ hx hy => toAddress_fromAddress hx hy,
    fun w => ⟨fromAddress_toAddress w, toAddress_x_lt w, toAddress_y_lt w⟩,
    bytes_of_address, ofBytes_bytes, by decide⟩

/-! ### Cells of a grid after a store -/

/-- The cell stored to holds the Word stored. -/
@[simp] theorem Grid.cell_setCell_self (g : Grid) (c : Coord) (v : Word) : (g.setCell c v).cell c = v :=
  readWordAt_writeWordAt_self g.cells (g.index c) v

/-- A store leaves every other cell of the grid, since in-bounds coordinates do not share a raster index. -/
theorem Grid.cell_setCell_ne {g : Grid} {c d : Coord} (v : Word) (hc : g.inBounds c = true)
    (hd : g.inBounds d = true) (h : d ≠ c) : (g.setCell c v).cell d = g.cell d := by
  obtain ⟨hcx, _⟩ := (g.inBounds_iff c).mp hc
  obtain ⟨hdx, _⟩ := (g.inBounds_iff d).mp hd
  exact readWordAt_writeWordAt_ne g.cells v fun hi => h (Grid.index_inj hdx hcx hi)

/-- A store leaves what `get` answers at every other coordinate, in bounds or not. -/
theorem Grid.get_setCell_ne {g : Grid} {c d : Coord} (v : Word) (hc : g.inBounds c = true) (h : d ≠ c) :
    (g.setCell c v).get d = g.get d := by
  cases hd : g.inBounds d with
  | false => simp [Grid.get, hd]
  | true => simp [Grid.get, hd, Grid.cell_setCell_ne v hc hd h]

/-- The fetch probe of the coordinate stored to gives the Word stored. -/
theorem Grid.getChecked_setCell_self {g : Grid} {c : Coord} (v : Word) (h : g.inBounds c = true) :
    (g.setCell c v).getChecked c = some v := by
  simp [Grid.getChecked, h]

/-! ### `MemRead` and `MemWrite` -/

section Access

variable {s : State} {a : Word}

theorem State.memRead1_of_inBounds (h : s.program.inBounds (toAddress a) = true) :
    s.memRead1 a = .ok (s.program.cell (toAddress a)) := by
  simp [State.memRead1, Grid.get, h]

theorem State.memRead1_of_not_inBounds (h : s.program.inBounds (toAddress a) = false) :
    s.memRead1 a = .error .addressOutOfBounds := by
  simp [State.memRead1, Grid.get, h]

theorem State.memWrite1_of_inBounds (v : Word) (h : s.program.inBounds (toAddress a) = true) :
    s.memWrite1 a v = .ok { s with program := s.program.setCell (toAddress a) v } := by
  simp [State.memWrite1, Grid.set, h]

theorem State.memWrite1_of_not_inBounds (v : Word) (h : s.program.inBounds (toAddress a) = false) :
    s.memWrite1 a v = .error .addressOutOfBounds := by
  simp [State.memWrite1, Grid.set, h]

/-- `MemRead` of the Address stored to gives the Word stored. -/
theorem State.memRead1_setCell_self (v : Word) (h : s.program.inBounds (toAddress a) = true) :
    State.memRead1 { s with program := s.program.setCell (toAddress a) v } a = .ok v := by
  simp [State.memRead1, Grid.get, h]

/-- `MemRead` of another Address answers as before the store: distinct Words are distinct coordinates. -/
theorem State.memRead1_setCell_ne {b : Word} (v : Word) (h : s.program.inBounds (toAddress a) = true) (hb : b ≠ a) :
    State.memRead1 { s with program := s.program.setCell (toAddress a) v } b = s.memRead1 b :=
  Grid.get_setCell_ne v h (toAddress_injective.ne hb)

end Access

/-- Settles O15: the state a write in bounds answers is `s` with one cell of `program` replaced, and each clause is a rule of
that store. -/
theorem memoryReadAfterWrite : Obligations.MemoryReadAfterWrite := by
  intro s a v
  refine ⟨fun hout => ⟨State.memRead1_of_not_inBounds hout, State.memWrite1_of_not_inBounds v hout⟩, fun hin => ?_⟩
  refine ⟨State.memRead1_of_inBounds hin, { s with program := s.program.setCell (toAddress a) v },
    State.memWrite1_of_inBounds v hin, ?_⟩
  have hread := State.memRead1_setCell_self v hin
  have hprobe := Grid.getChecked_setCell_self v hin
  have hother : ∀ b : Word, b ≠ a →
      State.memRead1 { s with program := s.program.setCell (toAddress a) v } b = s.memRead1 b :=
    fun b hb => State.memRead1_setCell_ne v hin hb
  have hbytes : ∀ n, n / 3 ≠ s.program.index (toAddress a) →
      memRead (s.program.setCell (toAddress a) v).cells n = memRead s.program.cells n :=
    fun n hn => memRead_writeWordAt_ne s.program.cells v hn
  exact ⟨hread, hprobe, rfl, rfl, rfl, hother, hbytes⟩

end Sys2Proof.Machine

/-! PROOFS. The fetch at the head of a step and the reading and writing of an operand (spec/40_cycle_and_operands.md R111, R116,
R117). -/

namespace Sys2Proof.Machine

section OperandForms

variable (s : State) {i : Nat} (v : Word)

/-! ### The two forms of an operand -/

/-- A direct operand reads its register. -/
theorem State.rd_direct (hi : i < 32) : s.rd ⟨false, i⟩ = .ok (s.reg i) := by
  simp [State.rd, State.readReg, Nat.le_of_lt_succ hi]

/-- A dereferenced operand is the `MemRead` of the Address in its register. -/
theorem State.rd_deref (hi : i < 32) : s.rd ⟨true, i⟩ = s.memRead1 (s.reg i) := by
  simp [State.rd, State.readReg, Nat.le_of_lt_succ hi]

/-- A write to a direct operand writes its register. -/
theorem State.wr_direct (hi : i < 32) : s.wr ⟨false, i⟩ v = .ok (s.setReg i v) := by
  simp [State.wr, State.writeReg, Nat.le_of_lt_succ hi]

/-- A write to a dereferenced operand is the `MemWrite` to the Address in its register. -/
theorem State.wr_deref (hi : i < 32) : s.wr ⟨true, i⟩ v = s.memWrite1 (s.reg i) v := by
  simp [State.wr, State.readReg, Nat.le_of_lt_succ hi]

/-! ### Register 31 -/

/-- Writing register 31 moves the IP to the Address written. -/
@[simp] theorem State.ip_setReg_31 : (s.setReg 31 v).ip = toAddress v :=
  congrArg toAddress (s.reg_setReg_self 31 v (by decide))

end OperandForms

/-- The fetched Word is what `MemRead` of the IP gives. -/
theorem State.memRead1_pc_of_fetch {s : State} {w : Word} (h : s.fetch = some w) : s.memRead1 s.pc = .ok w := by
  rcases s.program.getChecked_cases s.ip with ⟨hin, hsome⟩ | ⟨_, hnone⟩
  · have hw : s.program.cell s.ip = w := Option.some.inj (hsome.symm.trans h)
    exact hw ▸ State.memRead1_of_inBounds hin
  · cases hnone.symm.trans h

/-- Settles O16: a direct operand is `rd_direct`, a dereferenced one the `MemRead` in or out of bounds, and `*r31` the `MemRead`
of the IP, as the fetch is. -/
theorem operandReadResolves : Obligations.OperandReadResolves := by
  rintro s ⟨deref, i⟩ (hi : i < 32)
  refine ⟨?_, fun w hfetch => (s.rd_deref (by decide)).trans (State.memRead1_pc_of_fetch hfetch)⟩
  cases deref with
  | false => simpa using s.rd_direct hi
  | true =>
    rw [s.rd_deref hi]
    cases hb : s.program.inBounds (toAddress (s.reg i)) with
    | false => simpa [hb] using State.memRead1_of_not_inBounds hb
    | true => simpa [hb] using State.memRead1_of_inBounds hb

/-- Settles O17: a direct write is `setReg`, and a dereferenced one the `MemWrite` to the Address in the register, whose store
changes that one cell of `program`. -/
theorem operandWriteStores : Obligations.OperandWriteStores := by
  rintro s ⟨deref, i⟩ v (hi : i < 32)
  refine ⟨?direct, ⟨s.wr_direct v (by decide), s.ip_setReg_31 v⟩, ?outside, ?inside⟩
  case direct =>
    rintro rfl
    have hreg : ∀ j, (s.setReg i v).reg j = if j = i then v else s.reg j := by simp [State.reg_setReg, hi]
    exact ⟨s.setReg i v, s.wr_direct v hi, rfl, hreg⟩
  case outside =>
    rintro rfl hout
    exact (s.wr_deref v hi).trans (State.memWrite1_of_not_inBounds v hout)
  case inside =>
    rintro rfl hin
    exact ⟨{ s with program := s.program.setCell (toAddress (s.reg i)) v },
      (s.wr_deref v hi).trans (State.memWrite1_of_inBounds v hin), rfl, State.memRead1_setCell_self v hin,
      fun _ hb => State.memRead1_setCell_ne v hin hb⟩

/-! ### The step of a Running machine -/

section RunningStep

variable {s : State} (hrun : s.runState = .running)
include hrun

/-- A Running machine whose IP is outside `program` halts. -/
theorem step_of_not_inBounds (hout : s.program.inBounds s.ip = false) : step s = .next s.halt := by
  rcases step_cases s with ⟨hr, _⟩ | ⟨_, hr, _⟩ | ⟨_, _, hstep⟩ | ⟨_, hin, _⟩
  · cases hrun.symm.trans hr
  · cases hrun.symm.trans hr
  · exact hstep
  · cases hout.symm.trans hin

/-- A Running machine whose IP is inside `program` executes the instruction of the Word there. -/
theorem step_of_inBounds (hin : s.program.inBounds s.ip = true) : step s = exec (decodeWord (s.program.cell s.ip)) s := by
  rcases step_cases s with ⟨hr, _⟩ | ⟨_, hr, _⟩ | ⟨_, hout, _⟩ | ⟨_, _, hstep⟩
  · cases hrun.symm.trans hr
  · cases hrun.symm.trans hr
  · cases hout.symm.trans hin
  · exact hstep

end RunningStep

/-- Settles O11: the two clauses are the step with the IP outside and inside `program`. -/
theorem stepRunsTheFetchedInstruction : Obligations.StepRunsTheFetchedInstruction := by
  intro s hrun
  refine ⟨fun hout => step_of_not_inBounds hrun hout, ?_⟩
  rintro hin _ rfl
  exact step_of_inBounds hrun hin

end Sys2Proof.Machine

/-! PROOFS. Halt: the Words that decode to it, its effect, and what the host receives (spec/45_control_flow.md R205;
spec/30_encoding.md R83, R84). -/

namespace Sys2Proof

/-! ### The opcode of a decoded Word -/

/-- The reduction of R83, on the Word's value: the raw opcode is its top six bits. -/
theorem reducedOpcode_eq (w : Word) : reducedOpcode w = w.toNat / 2 ^ 18 % 27 := by
  have hw := w.isLt
  have hraw : (rawOpcode w).toNat = w.toNat / 2 ^ 18 := by
    simp only [rawOpcode, BitVec.extractLsb'_toNat, Nat.shiftRight_eq_div_pow]
    omega
  rw [reducedOpcode, hraw, Config.opcodeCount]

/-- The decoder selects the instruction by its position in the list of R84. -/
theorem opcode_decodeWord (w : Word) : (decodeWord w).opcode = reducedOpcode w := by
  have hlt : reducedOpcode w < 27 := Nat.mod_lt _ (by decide)
  unfold decodeWord
  generalize reducedOpcode w = n at hlt ⊢
  interval_cases n <;> rfl

/-- Halt is alone at position 26 of the list of R84. -/
theorem Instr.opcode_eq_26_iff (i : Instr) : i.opcode = 26 ↔ i = .halt := by
  cases i <;> simp [Instr.opcode]

/-- The raw opcodes that reduce to 26 are 26 and 53, and each is one range of Words. -/
theorem decodeWord_eq_halt_iff (w : Word) :
    decodeWord w = .halt ↔
      (0x680000 ≤ w.toNat ∧ w.toNat ≤ 0x6BFFFF) ∨ (0xD40000 ≤ w.toNat ∧ w.toNat ≤ 0xD7FFFF) := by
  have hw := w.isLt
  rw [← Instr.opcode_eq_26_iff, opcode_decodeWord, reducedOpcode_eq]
  omega

end Sys2Proof

namespace Sys2Proof.Machine

/-- The effect of Halt is to end the run (R205). -/
theorem exec_halt (s : State) : exec .halt s = .next s.halt := rfl

/-- From a Halted state the host receives the two grids, whatever the step bound. -/
theorem runFor_of_halted {s : State} (h : s.runState = .halted) (n : Nat) :
    runFor n s = .halted s.program.buffer (s.output.map Grid.buffer) := by
  unfold runFor
  rw [h]

/-- Settles O39: the ranges are `decodeWord_eq_halt_iff`, the canonical Word is evaluated, and the state Halt answers is Halted
with the grids of `s`. -/
theorem haltEndsTheRun : Obligations.HaltEndsTheRun :=
  ⟨decodeWord_eq_halt_iff, by decide, fun s => ⟨exec_halt s, runFor_of_halted (s := s.halt) rfl⟩⟩

end Sys2Proof.Machine

/-! PROOFS. Return and Pop on an empty stack (spec/60_exceptions.md R234). -/

namespace Sys2Proof.Machine

/-- Return takes a Word from the stack and sends the IP there. -/
theorem exec_ret (s : State) : exec .ret s = .next (s.orRaise s.pop fun p => p.2.redirect p.1) := rfl

/-- Pop takes a Word from the stack before it writes its operand (D12). -/
theorem exec_pop (s : State) (r : Operand) : exec (.pop r) s = .next (s.orRaise s.pop fun p => p.2.wrAdvance r p.1) := rfl

/-- The machine starts with nothing on the stack. -/
@[simp] theorem State.reset_stack : State.reset.stack = [] := rfl

section EmptyStack

variable {s : State} (hempty : s.stack = [])
include hempty

/-- An empty stack has no Word to give. -/
theorem State.pop_of_empty : s.pop = .error .stackUnderflow := by
  rcases s.pop_cases with ⟨_, hpop⟩ | ⟨_, _, hcons, _⟩
  · exact hpop
  · cases hempty.symm.trans hcons

/-- What follows a pop is not reached from an empty stack, so nothing of it is written. -/
theorem State.orRaise_pop_of_empty (k : Word × State → State) : s.orRaise s.pop k = s.raise .stackUnderflow := by
  rw [State.pop_of_empty hempty, State.orRaise_error]

theorem exec_ret_of_empty : exec .ret s = .next (s.raise .stackUnderflow) := by
  rw [exec_ret, State.orRaise_pop_of_empty hempty]

theorem exec_pop_of_empty (r : Operand) : exec (.pop r) s = .next (s.raise .stackUnderflow) := by
  rw [exec_pop, State.orRaise_pop_of_empty hempty]

end EmptyStack

/-- Settles O42: both instructions begin with the pop, which raises on the empty stack, and `raise` changes `runState` alone. -/
theorem emptyStackFaults : Obligations.EmptyStackFaults :=
  ⟨fun _ r hempty => ⟨exec_ret_of_empty hempty, exec_pop_of_empty hempty r⟩, State.reset_stack⟩

end Sys2Proof.Machine

/-! PROOFS. The encoding: decode of encode, encode of decode, and the decoder on bytes (spec/30_encoding.md R82 to R96). -/

namespace Sys2Proof

open Machine (byte0 byte1 byte2 ofBytes ofBytes_bytes)

/-! ### Packing and unpacking the four fields -/

/-- The value of a packed Word (R82). -/
theorem toNat_packWord (op a b c : BitVec 6) :
    (packWord op a b c).toNat = op.toNat * 2 ^ 18 + a.toNat * 2 ^ 12 + b.toNat * 2 ^ 6 + c.toNat := by
  have ha := a.isLt
  have hb := b.isLt
  have hc := c.isLt
  simp only [packWord, BitVec.toNat_append]
  rw [← Nat.shiftLeft_add_eq_or_of_lt ha, ← Nat.shiftLeft_add_eq_or_of_lt hb, ← Nat.shiftLeft_add_eq_or_of_lt hc]
  simp only [Nat.shiftLeft_eq]
  omega

/-- The four fields of a Word, packed again, are the Word. -/
theorem packWord_fields (w : Word) : packWord (rawOpcode w) (fieldA w) (fieldB w) (fieldC w) = w := by
  apply BitVec.eq_of_toNat_eq
  have hw := w.isLt
  simp only [toNat_packWord, rawOpcode, fieldA, fieldB, fieldC, BitVec.extractLsb'_toNat, Nat.shiftRight_eq_div_pow]
  omega

/-! ### The fields of an encoded instruction -/

section EncodeAs

variable (raw : BitVec 6) (free : Word) (i : Instr)

@[simp] theorem rawOpcode_encodeAs : rawOpcode (encodeAs raw free i) = raw := rawOpcode_packWord ..
@[simp] theorem fieldA_encodeAs : fieldA (encodeAs raw free i) = (i.fields free).1 := fieldA_packWord ..
@[simp] theorem fieldB_encodeAs : fieldB (encodeAs raw free i) = (i.fields free).2.1 := fieldB_packWord ..
@[simp] theorem fieldC_encodeAs : fieldC (encodeAs raw free i) = (i.fields free).2.2 := fieldC_packWord ..

end EncodeAs

/-- Every instruction stands among the 27 of R84. -/
theorem Instr.opcode_lt (i : Instr) : i.opcode < 27 := by
  cases i <;> simp [Instr.opcode]

/-- A canonical opcode fits the raw opcode and is its own reduction. -/
theorem Instr.toNat_opcode_mod (i : Instr) : (BitVec.ofNat 6 i.opcode).toNat % 27 = i.opcode := by
  have hlt := i.opcode_lt
  rw [BitVec.toNat_ofNat]
  omega

/-! ### Decode of encode -/

/-- With the opcode known, the decoder reads back each field the encoder wrote. -/
theorem decodeWord_encodeAs {i : Instr} {raw : BitVec 6} (free : Word) (hwf : i.wf = true)
    (hop : raw.toNat % 27 = i.opcode) : decodeWord (encodeAs raw free i) = i := by
  have hred : reducedOpcode (encodeAs raw free i) = i.opcode := by rw [reducedOpcode, rawOpcode_encodeAs]; exact hop
  unfold decodeWord
  rw [hred]
  cases i <;> simp_all [Instr.opcode, Instr.fields, Instr.wf, Instr.operands, operandOf_operandField]

theorem decodeWord_encode {i : Instr} (hwf : i.wf = true) : decodeWord (encode i) = i :=
  decodeWord_encodeAs 0 hwf i.toNat_opcode_mod

/-- The three bytes of a canonical Word, whatever follows them. -/
theorem decodeBytes_encodeBytes {i : Instr} (hwf : i.wf = true) (rest : List Byte) :
    decodeBytes (encodeBytes i ++ rest) = .ok (i, rest) := by
  show Except.ok (decodeWord (ofBytes (byte0 (encode i)) (byte1 (encode i)) (byte2 (encode i))), rest) = _
  rw [ofBytes_bytes, decodeWord_encode hwf]

/-- Settles O2: the decoder takes the opcode by its reduction, so the canonical raw opcode and every other one of its class give
`i`, and the bytes are those of the canonical Word. -/
theorem decodeOfEveryEncoding : Obligations.DecodeOfEveryEncoding :=
  fun _ _ free rest hwf => ⟨decodeWord_encodeAs free hwf, decodeWord_encode hwf, decodeBytes_encodeBytes hwf rest⟩

/-! ### Encode of decode -/

/-- The decoder puts only well-formed operands into an instruction (R92). -/
theorem decodeWord_wf (w : Word) : (decodeWord w).wf = true := by
  unfold decodeWord
  split <;> simp [Instr.wf, Instr.operands, operandOf_wf]

/-- The fields of a decoded instruction, its unused ones filled from the Word itself, are those of the Word. -/
theorem fields_decodeWord (w : Word) : (decodeWord w).fields w = (fieldA w, fieldB w, fieldC w) := by
  unfold decodeWord
  split <;> simp [Instr.fields, operandField_operandOf]

theorem encodeAs_decodeWord (w : Word) : encodeAs (rawOpcode w) w (decodeWord w) = w := by
  rw [encodeAs, fields_decodeWord, packWord_fields]

/-- Settles O3: no field of a Word is lost in decoding, and the four fields are all its bits. -/
theorem encodeOfEveryDecoding : Obligations.EncodeOfEveryDecoding :=
  fun w => ⟨decodeWord_wf w, (opcode_decodeWord w).trans (reducedOpcode_eq w), encodeAs_decodeWord w⟩

/-! ### The decoder on bytes -/

/-- byte0 is the most significant byte (R59; D1). -/
theorem ofBytes_eq_ofNat (b0 b1 b2 : Byte) :
    ofBytes b0 b1 b2 = BitVec.ofNat 24 (b0.toNat * 65536 + b1.toNat * 256 + b2.toNat) := by
  apply BitVec.eq_of_toNat_eq
  have h0 := b0.isLt
  have h1 := b1.isLt
  have h2 := b2.isLt
  simp only [ofBytes, BitVec.toNat_append, BitVec.toNat_ofNat]
  rw [← Nat.shiftLeft_add_eq_or_of_lt h1, ← Nat.shiftLeft_add_eq_or_of_lt h2]
  simp only [Nat.shiftLeft_eq]
  omega

theorem decodeBytes_of_short {bs : List Byte} (h : bs.length < 3) : decodeBytes bs = .error .truncated := by
  match bs, h with
  | [], _ => rfl
  | [_], _ => rfl
  | [_, _], _ => rfl

/-- Settles O4: lists below three bytes are the decoder's second arm, all others its first. -/
theorem decodeBytesConsumesOneWord : Obligations.DecodeBytesConsumesOneWord :=
  ⟨fun _ h => decodeBytes_of_short h, fun b0 b1 b2 rest => by rw [← ofBytes_eq_ofNat, decodeBytes]⟩

/-- Settles O5: each of the nine Words is decoded by evaluation. -/
theorem wordsOfTheSpecDecode : Obligations.WordsOfTheSpecDecode := by
  unfold Obligations.WordsOfTheSpecDecode
  decide

end Sys2Proof

/-! PROOFS. What each shape of a next state keeps: the frames of `Effect`, field by field, from which the frame obligations and
the invariant of a run follow without looking at an instruction again. -/

namespace Sys2Proof.Machine

/-! ### Rules of the operations that `Effect` is made of -/

/-- A transfer writes register 31 and nothing else (R123). -/
@[simp] theorem State.redirect_eq (s : State) (t : Word) : s.redirect t = s.setReg 31 t := rfl

/-- The IP depends on the register file alone. -/
theorem State.ip_congr {s t : State} (h : s.regs = t.regs) : s.ip = t.ip :=
  congrArg toAddress (State.reg_congr h 31)

theorem State.stored_direct (s : State) (i : Nat) (v : Word) : s.stored ⟨false, i⟩ v = s.setReg i v := rfl

theorem State.stored_deref (s : State) (i : Nat) (v : Word) :
    s.stored ⟨true, i⟩ v = { s with program := s.program.setCell (toAddress (s.reg i)) v } := rfl

/-- A store through an operand changes no register but a direct one. -/
theorem State.reg_stored_ne {s : State} {d : Operand} {r : Nat} (v : Word) (h : d ≠ ⟨false, r⟩) :
    (s.stored d v).reg r = s.reg r := by
  obtain ⟨deref, i⟩ := d
  cases deref with
  | true => rfl
  | false =>
    rw [State.stored_direct]
    exact s.reg_setReg_ne i r v fun hri => h (by rw [hri])

theorem State.program_stored_of_direct {s : State} {d : Operand} (v : Word) (h : d.deref = false) :
    (s.stored d v).program = s.program := by
  simp [State.stored, h]

/-- A store through a resolved operand keeps `program` well formed. -/
theorem State.stored_program_wf {s : State} {d : Operand} (v : Word) (hp : s.program.wf = true) (hd : s.resolves d = true) :
    (s.stored d v).program.wf = true := by
  obtain ⟨deref, i⟩ := d
  cases deref with
  | false => exact hp
  | true =>
    have hin : s.program.inBounds (toAddress (s.reg i)) = true := by
      simp only [State.resolves, Bool.and_eq_true] at hd
      exact hd.2
    exact Grid.wf_setCell v hp hin

section CopyAdvance

variable (s : State) (dst src : Coord) (n : Nat)

@[simp] theorem State.copyAdvance_stack : (s.copyAdvance dst src n).stack = s.stack := by
  obtain ⟨g, -, -, -, h | h⟩ := s.copyAdvance_cases dst src n <;> simp [h]
@[simp] theorem State.copyAdvance_input : (s.copyAdvance dst src n).input = s.input := by
  obtain ⟨g, -, -, -, h | h⟩ := s.copyAdvance_cases dst src n <;> simp [h]
@[simp] theorem State.copyAdvance_output : (s.copyAdvance dst src n).output = s.output := by
  obtain ⟨g, -, -, -, h | h⟩ := s.copyAdvance_cases dst src n <;> simp [h]
@[simp] theorem State.copyAdvance_allocNext : (s.copyAdvance dst src n).allocNext = s.allocNext := by
  obtain ⟨g, -, -, -, h | h⟩ := s.copyAdvance_cases dst src n <;> simp [h]

/-- MemCopy leaves in `program` the grid its loop answers, completed or not. -/
theorem State.copyAdvance_program : (s.copyAdvance dst src n).program = (copyWords n src dst s.program).1 := by
  obtain ⟨g, rfl, -, -, h | h⟩ := s.copyAdvance_cases dst src n <;> simp [h]

theorem State.reg_copyAdvance_ne {r : Nat} (hr : r ≠ 31) : (s.copyAdvance dst src n).reg r = s.reg r := by
  obtain ⟨g, -, -, -, h | h⟩ := s.copyAdvance_cases dst src n
  · rw [h, State.reg_advance_ne _ hr, State.reg_withProgram]
  · rw [h, State.reg_raise, State.reg_withProgram]

end CopyAdvance

/-! ### The state an instruction writes from -/

section WritesFrom

variable {i : Instr} {s b : State} (h : WritesFrom i s b)
include h

theorem WritesFrom.regs_eq : b.regs = s.regs := by cases h <;> simp
theorem WritesFrom.runState_eq : b.runState = s.runState := by cases h <;> simp
theorem WritesFrom.program_eq : b.program = s.program := by cases h <;> simp
theorem WritesFrom.input_eq : b.input = s.input := by cases h <;> simp

end WritesFrom

/-! ### Frames -/

/-- What `output` and `alloc_next` can become: unchanged, or, by Alloc alone, materialized with `alloc_next` unchanged or grown
within the grid. -/
def OutputStep (i : Instr) (s t : State) : Prop :=
  (t.output = s.output ∧ t.allocNext = s.allocNext) ∨
  ((∃ size dst, i = .alloc size dst) ∧ t.output = s.materialize.output ∧
    (t.allocNext = s.allocNext ∨ (s.allocNext ≤ t.allocNext ∧ t.allocNext ≤ s.outputCap)))

/-- What the stack can become: unchanged, one Word more by Call, CallIf or Push, one Word less by Return or Pop. -/
def StackStep (i : Instr) (s t : State) : Prop :=
  t.stack = s.stack ∨
  (∃ v, t.stack = v :: s.stack ∧ ((∃ o, i = .call o) ∨ (∃ c o, i = .callIf c o) ∨ ∃ o, i = .push o)) ∨
  (∃ v, s.stack = v :: t.stack ∧ (i = .ret ∨ ∃ o, i = .pop o))

theorem WritesFrom.outputStep {i : Instr} {s b : State} (h : WritesFrom i s b) : OutputStep i s b := by
  cases h with
  | same => exact .inl ⟨rfl, rfl⟩
  | popped => exact .inl ⟨rfl, rfl⟩
  | reserved size dst n hi hfit => exact .inr ⟨⟨size, dst, hi⟩, rfl, .inr ⟨Nat.le_add_right _ _, hfit⟩⟩

theorem WritesFrom.stackStep {i : Instr} {s b : State} (h : WritesFrom i s b) : StackStep i s b := by
  cases h with
  | same => exact .inl rfl
  | popped r v rest hi hs => exact .inr (.inr ⟨v, hs, .inr ⟨r, hi⟩⟩)
  | reserved => exact .inl s.materialize_stack

section Frames

variable {i : Instr} {s t : State} (h : Effect i s t)
include h

theorem Effect.input_eq : t.input = s.input := by
  cases h with
  | wrote b d v _ hb => simpa using hb.input_eq
  | writeRaised b d k _ hb => simpa using hb.input_eq
  | _ => simp

theorem Effect.outputStep : OutputStep i s t := by
  cases h with
  | wrote b d v _ hb => simpa [OutputStep] using hb.outputStep
  | writeRaised b d k _ hb => simpa [OutputStep] using hb.outputStep
  | noRoom size dst hi => exact .inr ⟨⟨size, dst, hi⟩, rfl, .inl s.materialize_allocNext⟩
  | _ => exact .inl (by simp)

theorem Effect.stackStep : StackStep i s t := by
  cases h with
  | wrote b d v _ hb => simpa [StackStep] using hb.stackStep
  | writeRaised b d k _ hb => simpa [StackStep] using hb.stackStep
  | pushed r hi => exact .inr (.inl ⟨s.valueOf r, by simp, .inr (.inr ⟨r, hi⟩)⟩)
  | called c t r hi =>
    refine .inr (.inl ⟨r, by simp, ?_⟩)
    rcases hi with hi | hi
    · exact .inl ⟨t, hi⟩
    · exact .inr (.inl ⟨c, t, hi⟩)
  | returned v rest hi hs => exact .inr (.inr ⟨v, by simpa using hs, .inl hi⟩)
  | _ => exact .inl (by simp)

/-- A register other than the IP changes only as a direct destination. -/
theorem Effect.reg_eq {r : Nat} (hr : r ≠ 31) (hd : i.dest ≠ some ⟨false, r⟩) : t.reg r = s.reg r := by
  cases h with
  | raised => rfl
  | noRoom => exact State.reg_congr s.materialize_regs r
  | wrote b d v hi hb =>
    have hne : d ≠ ⟨false, r⟩ := fun e => hd (e ▸ hi)
    rw [State.reg_advance_ne _ hr, State.reg_stored_ne v hne]
    exact State.reg_congr hb.regs_eq r
  | writeRaised b d k _ hb => exact State.reg_congr hb.regs_eq r
  | copied => exact State.reg_copyAdvance_ne _ _ _ _ hr
  | pushed => rw [State.reg_advance_ne _ hr, State.reg_push]
  | notTaken => exact State.reg_advance_ne _ hr
  | jumped => exact State.reg_setReg_ne _ _ _ _ hr
  | called => exact State.reg_setReg_ne _ _ _ _ hr
  | returned => exact State.reg_setReg_ne _ _ _ _ hr
  | halted => rfl

/-- `program` keeps its dimensions. -/
theorem Effect.dims_eq : t.program.width = s.program.width ∧ t.program.height = s.program.height := by
  cases h with
  | wrote b d v _ hb => simp [hb.program_eq]
  | writeRaised b d k _ hb => simp [hb.program_eq]
  | copied dst src len =>
    obtain ⟨hw, hh, -⟩ :=
      copyWords_dims (s.valueOf len).toNat (toAddress (s.valueOf src)) (toAddress (s.valueOf dst)) s.program
    rw [State.copyAdvance_program]
    exact ⟨hw, hh⟩
  | _ => simp

theorem Effect.program_wf (hp : s.program.wf = true) : t.program.wf = true := by
  cases h with
  | wrote b d v _ hb hres =>
    rw [State.advance_program]
    exact State.stored_program_wf v (hb.program_eq ▸ hp) hres
  | writeRaised b d k _ hb => simpa [hb.program_eq] using hp
  | copied => rw [State.copyAdvance_program]; exact copyWords_wf _ _ _ hp
  | _ => simpa using hp

/-- Without a dereferenced destination only MemCopy changes `program`. -/
theorem Effect.program_eq (hd : ∀ d, i.dest = some d → d.deref = false) (hi : ∀ dst src len, i ≠ .memCopy dst src len) :
    t.program = s.program := by
  cases h with
  | wrote b d v hdest hb =>
    rw [State.advance_program, State.program_stored_of_direct v (hd d hdest), hb.program_eq]
  | writeRaised b d k _ hb => simp [hb.program_eq]
  | copied dst src len he => exact absurd he (hi dst src len)
  | _ => simp

/-- A store through a dereferenced destination leaves every byte outside the cell addressed. -/
theorem Effect.programByte_eq {d : Operand} (hdest : i.dest = some d) (hd : d.deref = true) {n : Nat}
    (hn : n / 3 ≠ s.cellIndex d) : t.programByte n = s.programByte n := by
  cases h with
  | wrote b d' v hdest' hb =>
    obtain rfl : d' = d := Option.some.inj (hdest'.symm.trans hdest)
    obtain ⟨deref, r⟩ := d'
    obtain rfl : deref = true := hd
    have hcell : s.program.index (toAddress (b.reg r)) = s.cellIndex ⟨true, r⟩ := by
      rw [State.reg_congr hb.regs_eq r]
      rfl
    rw [State.programByte, State.advance_program, State.stored_deref, hb.program_eq]
    exact memRead_writeWordAt_ne _ v (hcell ▸ hn)
  | writeRaised b d' k _ hb => simp [State.programByte, hb.program_eq]
  | copied dst src len hi => subst hi; cases hdest
  | _ => simp [State.programByte]

/-- An instruction that raises has changed no register. -/
theorem Effect.regs_of_faulted {k : ErrorKind} (hrun : s.runState = .running) (hk : t.runState = .faulted k) :
    t.regs = s.regs := by
  have hadvance : ∀ u : State, u.runState = .running → u.advance.runState ≠ .faulted k := by
    intro u hu
    rcases u.advance_runState with e | e <;> simp [e, hu]
  cases h with
  | raised => rfl
  | noRoom => exact s.materialize_regs
  | wrote b d v _ hb => exact absurd hk (hadvance _ (by simp [hb.runState_eq, hrun]))
  | writeRaised b d k' _ hb => exact hb.regs_eq
  | copied dst src len =>
    obtain ⟨g, -, -, -, e | e⟩ :=
      s.copyAdvance_cases (toAddress (s.valueOf dst)) (toAddress (s.valueOf src)) (s.valueOf len).toNat
    · rw [e] at hk
      exact absurd hk (hadvance _ hrun)
    · rw [e]
      rfl
  | pushed r => exact absurd hk (hadvance _ hrun)
  | notTaken => exact absurd hk (hadvance _ hrun)
  | jumped => simp [hrun] at hk
  | called => simp [hrun] at hk
  | returned => simp [hrun] at hk
  | halted => cases hk

end Frames

/-! ### The frame obligations -/

/-- Settles O46: the frame of the registers, for every shape of a next state. -/
theorem onlyTheDestinationRegisterChanges : Obligations.OnlyTheDestinationRegisterChanges :=
  fun _ _ _ _ hex hr hd => (exec_effect hex).reg_eq hr hd

/-- Settles O49: equal grids have equal bytes. -/
theorem programUnchangedWithoutAStore : Obligations.ProgramUnchangedWithoutAStore := by
  intro i s t hex hd hi
  have hp : t.program = s.program := (exec_effect hex).program_eq hd hi
  exact ⟨fun n => by rw [State.programByte, hp, State.programByte], hp⟩

/-- Settles O50: the frame of the bytes of `program` under a store. -/
theorem storeChangesOnlyItsCell : Obligations.StoreChangesOnlyItsCell :=
  fun _ _ _ _ hex hdest hd _ hn => (exec_effect hex).programByte_eq hdest hd hn

/-- Settles O52: `StackStep` is the statement's conclusion. -/
theorem onlyTheTopOfTheStackChanges : Obligations.OnlyTheTopOfTheStackChanges :=
  fun _ _ _ hex => (exec_effect hex).stackStep

/-- A present `output` is materialized already. -/
theorem State.materialize_output_of_present {s : State} {g : Grid} (h : s.output = some g) :
    s.materialize.output = some g := by
  rw [State.materialize_output, h, Option.getD_some]

/-- Settles O53: the two cases of `OutputStep`, the second being Alloc's. -/
theorem onlyAllocTouchesOutput : Obligations.OnlyAllocTouchesOutput := by
  intro i s t hex
  refine ⟨(exec_effect hex).input_eq, ?_⟩
  rcases (exec_effect hex).outputStep with ⟨ho, ha⟩ | ⟨⟨size, dst, hi⟩, ho, ha⟩
  · exact ⟨ha.ge, fun g hg => ho.trans hg, fun _ => ⟨ho, ha⟩⟩
  · refine ⟨?_, fun g hg => ho.trans (State.materialize_output_of_present hg), fun hne => absurd hi (hne size dst)⟩
    rcases ha with ha | ⟨hle, -⟩
    · exact ha.ge
    · exact hle

/-- Settles O45: an advance of a Running machine is never Faulted, so a Faulted next state is one that was raised. -/
theorem raisingLeavesRegisters : Obligations.RaisingLeavesRegisters :=
  fun _ _ _ _ hrun hex hk => (exec_effect hex).regs_of_faulted hrun hk

/-! ### The invariant of a run -/

/-- The invariant's clause on `output` and `alloc_next` is kept by every instruction. -/
theorem OutputStep.keeps {i : Instr} {s t : State} (h : OutputStep i s t)
    (hs : (s.output = none ∧ s.allocNext = 0) ∨
      (s.output = some (Grid.zero s.program.width s.program.height) ∧ s.allocNext ≤ s.program.width * s.program.height)) :
    (t.output = none ∧ t.allocNext = 0) ∨
      (t.output = some (Grid.zero s.program.width s.program.height) ∧ t.allocNext ≤ s.program.width * s.program.height) := by
  rcases h with ⟨ho, ha⟩ | ⟨-, ho, ha⟩
  · rwa [ho, ha]
  · right
    have hzero : s.materialize.output = some (Grid.zero s.program.width s.program.height) := by
      rw [State.materialize_output]
      rcases hs with ⟨e, -⟩ | ⟨e, -⟩ <;> rw [e] <;> rfl
    have hle : s.allocNext ≤ s.program.width * s.program.height := by
      rcases hs with ⟨-, e⟩ | ⟨-, e⟩
      · omega
      · exact e
    refine ⟨ho.trans hzero, ?_⟩
    rcases ha with e | ⟨-, e⟩
    · exact e ▸ hle
    · exact e

theorem Effect.wf {i : Instr} {s t : State} (h : Effect i s t) (hs : s.wf = true) : t.wf = true := by
  obtain ⟨hp, hin, hout⟩ := s.wf_iff.mp hs
  obtain ⟨hw, hh⟩ := h.dims_eq
  refine t.wf_iff.mpr ⟨h.program_wf hp, h.input_eq ▸ hin, ?_⟩
  rw [hw, hh]
  exact h.outputStep.keeps hout

/-- Ending the run keeps the invariant, which does not speak of `run_state`. -/
theorem State.wf_halt {s : State} (hs : s.wf = true) : s.halt.wf = true := hs

/-- Settles O8: a step that answers a next state ends the run or is the effect of an instruction, and each clause of the invariant
is kept by every `Effect`. -/
theorem stepKeepsTheInvariant : Obligations.StepKeepsTheInvariant := by
  intro s t hs hstep
  rcases step_cases s with ⟨_, e⟩ | ⟨_, _, e⟩ | ⟨_, _, e⟩ | ⟨_, _, e⟩ <;> rw [e] at hstep
  · cases hstep
  · cases hstep
  · cases hstep
    exact ⟨State.wf_halt hs, rfl, rfl, rfl⟩
  · have heff := exec_effect hstep
    exact ⟨heff.wf hs, heff.dims_eq.1, heff.dims_eq.2, heff.input_eq⟩

end Sys2Proof.Machine

/-! PROOFS. The raster advance, the stack, the step of a stopped machine, the fetch after a store, and the run as the host sees it
(spec/40_cycle_and_operands.md R119 to R121; spec/10_state.md R31, R33; spec/20_memory.md R66; spec/70_reset_and_hazards.md). -/

namespace Sys2Proof.Machine

/-! ### The raster advance -/

theorem representable_iff (c : Coord) : representable c = true ↔ c.x ≤ 4095 ∧ c.y ≤ 4095 := by
  simp [representable]

/-- A representable coordinate is what its Word addresses. -/
theorem toAddress_fromAddress_of_representable {c : Coord} (h : representable c = true) :
    toAddress (fromAddress c) = c := by
  obtain ⟨hx, hy⟩ := (representable_iff c).mp h
  exact toAddress_fromAddress (Nat.lt_succ_of_le hx) (Nat.lt_succ_of_le hy)

theorem nextPos_of_ne {width : Nat} {c : Coord} (h : c.x + 1 ≠ width) : nextPos width c = ⟨c.x + 1, c.y⟩ := if_neg h

theorem nextPos_of_eq {width : Nat} {c : Coord} (h : c.x + 1 = width) : nextPos width c = ⟨0, c.y + 1⟩ := if_pos h

section Advance

variable {s : State} {c : Coord} (hnext : nextPos s.program.width s.ip = c)
include hnext

theorem State.advance_of_representable (hc : representable c = true) : s.advance = s.setReg 31 (fromAddress c) := by
  subst hnext
  exact if_pos hc

theorem State.advance_of_not_representable (hc : representable c = false) : s.advance = s.halt := by
  subst hnext
  simp [State.advance, hc]

end Advance

/-- The row of the IP fits 12 bits. -/
theorem State.ip_y_lt (s : State) : s.ip.y < 4096 := toAddress_y_lt s.pc

/-- Settles O19: the successor of the coordinate is read off `nextPos`, and its row decides whether it fits a Word. -/
theorem advanceFollowsRasterOrder : Obligations.AdvanceFollowsRasterOrder := by
  intro s _ hwidth
  have hy := s.ip_y_lt
  refine ⟨fun hx => ?inRow, fun hx hlast => ?rowEnd, fun hx hlast => ?gridEnd⟩
  case inRow =>
    have hcol : s.ip.x + 1 ≤ 4095 := by omega
    have hrow : s.ip.y ≤ 4095 := by omega
    exact State.advance_of_representable (nextPos_of_ne hx.ne) ((representable_iff _).mpr ⟨hcol, hrow⟩)
  case rowEnd =>
    exact State.advance_of_representable (nextPos_of_eq hx) ((representable_iff _).mpr ⟨by simp, hlast⟩)
  case gridEnd =>
    exact State.advance_of_not_representable (nextPos_of_eq hx) (by simp [representable, hlast])

/-- The raster successor of a coordinate outside the grid is outside it. -/
theorem Grid.not_inBounds_nextPos {g : Grid} {c : Coord} (h : g.inBounds c = false) :
    g.inBounds (nextPos g.width c) = false := by
  rw [← Bool.not_eq_true, Grid.inBounds_iff] at h ⊢
  unfold nextPos
  split <;> simp only <;> omega

/-- Settles O20: the successor of an out-of-bounds IP is out of bounds, so the next fetch finds no Word. -/
theorem advanceFromOutsideEndsTheRun : Obligations.AdvanceFromOutsideEndsTheRun := by
  intro s hrun hout
  rcases s.advance_cases with ⟨hrep, hadv⟩ | ⟨_, hadv⟩
  · right
    have hrun' : s.advance.runState = .running := by rw [hadv]; exact hrun
    have hip : s.advance.ip = nextPos s.program.width s.ip := by
      rw [hadv, State.ip_setReg_31, toAddress_fromAddress_of_representable hrep]
    have hout' : s.advance.program.inBounds s.advance.ip = false := by
      rw [hip, State.advance_program]
      exact Grid.not_inBounds_nextPos hout
    exact ⟨hrun', step_of_not_inBounds hrun' hout'⟩
  · exact .inl hadv

/-! ### The IP after an instruction -/

/-- The machine went on at the raster successor of the IP of `s`, or the run ended with that IP. -/
def NextIp (s t : State) : Prop :=
  (t.runState = .running ∧ t.ip = nextPos s.program.width s.ip) ∨ (t.runState ≠ .running ∧ t.pc = s.pc)

/-- An advance from a Running state with the IP and the width of `s`. -/
theorem NextIp.of_advance {s u : State} (hrun : u.runState = .running) (hw : u.program.width = s.program.width)
    (hpc : u.pc = s.pc) : NextIp s u.advance := by
  have hip : u.ip = s.ip := congrArg toAddress hpc
  rcases u.advance_cases with ⟨hrep, hadv⟩ | ⟨_, hadv⟩ <;> rw [hadv]
  · exact .inl ⟨hrun, by rw [State.ip_setReg_31, toAddress_fromAddress_of_representable hrep, hw, hip]⟩
  · exact .inr ⟨by simp, hpc⟩

theorem NextIp.of_raise {s u : State} (k : ErrorKind) (hpc : u.pc = s.pc) : NextIp s (u.raise k) :=
  .inr ⟨by simp, hpc⟩

theorem Effect.nextIp {i : Instr} {s t : State} (h : Effect i s t) (hrun : s.runState = .running)
    (htr : i.transfers = false) (hd : i.dest ≠ some ⟨false, 31⟩) : NextIp s t := by
  cases h with
  | raised k => exact .of_raise k rfl
  | noRoom => exact .of_raise _ (State.reg_congr s.materialize_regs 31)
  | wrote b d v hi hb =>
    have hpc : (b.stored d v).pc = s.pc :=
      (State.reg_stored_ne v fun e => hd (e ▸ hi)).trans (State.reg_congr hb.regs_eq 31)
    exact .of_advance (by simp [hb.runState_eq, hrun]) (by simp [hb.program_eq]) hpc
  | writeRaised b d k _ hb => exact .of_raise k (State.reg_congr hb.regs_eq 31)
  | copied dst src len =>
    obtain ⟨g, -, hw, -, e | e⟩ :=
      s.copyAdvance_cases (toAddress (s.valueOf dst)) (toAddress (s.valueOf src)) (s.valueOf len).toNat
    · rw [e]
      exact .of_advance hrun hw rfl
    · rw [e]
      exact .of_raise _ rfl
  | pushed r => exact .of_advance hrun rfl rfl
  | notTaken c t hi => rcases hi with rfl | rfl <;> cases htr
  | jumped c t hi => rcases hi with rfl | rfl <;> cases htr
  | called c t r hi => rcases hi with rfl | rfl <;> cases htr
  | returned v rest hi => subst hi; cases htr
  | halted => exact .inr ⟨by simp, rfl⟩

/-- Settles O47: `NextIp` holds of every effect with no transfer, and Halt is on its ended side. -/
theorem nextIpIsTheRasterSuccessor : Obligations.NextIpIsTheRasterSuccessor := by
  intro i s t hrun hex htr hd
  rcases (exec_effect hex).nextIp hrun htr hd with ⟨hrun', hip⟩ | hended
  · refine .inl ⟨hrun', ?_, hip⟩
    rintro rfl
    cases hex
    cases hrun'
  · exact .inr hended

/-! ### The stack -/

/-- A push undone by a pop. -/
theorem State.pop_push (s : State) (v : Word) : (s.push v).pop = .ok (v, s) := rfl

/-- Settles O18: the pop of a push by evaluation, and the underflow by the two cases of `pop`. -/
theorem stackIsLastInFirstOut : Obligations.StackIsLastInFirstOut := by
  refine fun s v => ⟨s.pop_push v, State.pop_of_empty, fun hunder => ?_⟩
  rcases s.pop_cases with ⟨hempty, _⟩ | ⟨_, _, _, hok⟩
  · exact hempty
  · cases hunder.symm.trans hok

/-! ### The step -/

theorem step_of_halted {s : State} (h : s.runState = .halted) : step s = .fault .runHalted := by
  unfold step
  rw [h]

theorem step_of_faulted {s : State} {k : ErrorKind} (h : s.runState = .faulted k) : step s = .fault (.runFaulted k) := by
  unfold step
  rw [h]

/-- Settles O12: the two stopped states are the step's own first cases. -/
theorem stoppedMachineTakesNoStep : Obligations.StoppedMachineTakesNoStep :=
  fun _ => ⟨step_of_halted, fun _ => step_of_faulted⟩

/-- Every arm of the dispatch answers a next state. -/
theorem exec_next (i : Instr) (s : State) : ∃ t, exec i s = .next t := by
  cases i <;> exact ⟨_, rfl⟩

/-- Settles O13. -/
theorem everyInstructionAnswersANextState : Obligations.EveryInstructionAnswersANextState := exec_next

/-- A Running machine always takes a step to a next state. -/
theorem step_next_of_running {s : State} (h : s.runState = .running) : ∃ t, step s = .next t := by
  cases hb : s.program.inBounds s.ip with
  | false => exact ⟨s.halt, step_of_not_inBounds h hb⟩
  | true => rw [step_of_inBounds h hb]; exact exec_next _ s

/-- A successful `MemWrite` was in bounds and stored the Word there. -/
theorem State.memWrite1_eq_ok {s t : State} {a v : Word} (h : s.memWrite1 a v = .ok t) :
    s.program.inBounds (toAddress a) = true ∧ t = { s with program := s.program.setCell (toAddress a) v } := by
  cases hb : s.program.inBounds (toAddress a) with
  | false => cases (State.memWrite1_of_not_inBounds v hb).symm.trans h
  | true => exact ⟨rfl, (Except.ok.inj ((State.memWrite1_of_inBounds v hb).symm.trans h)).symm⟩

/-- Settles O56: the cell at the new IP is the one just stored. -/
theorem writtenWordIsFetched : Obligations.WrittenWordIsFetched := by
  intro s t a v hrun hwrite
  obtain ⟨hin, rfl⟩ := State.memWrite1_eq_ok hwrite
  have hip : (State.redirect { s with program := s.program.setCell (toAddress a) v } a).ip = toAddress a :=
    State.ip_setReg_31 _ a
  refine ⟨?_, ?_⟩
  · rw [State.fetch, hip]
    exact Grid.getChecked_setCell_self v hin
  · rw [step_of_inBounds (by simpa using hrun) (by rw [hip]; simpa using hin), hip]
    simp

/-! ### The run as the host sees it -/

theorem runFor_of_faulted {s : State} {k : ErrorKind} (h : s.runState = .faulted k) (n : Nat) :
    runFor n s = .faulted k := by
  unfold runFor
  rw [h]

theorem runFor_zero_of_running {s : State} (h : s.runState = .running) : runFor 0 s = .didNotFinish := by
  unfold runFor
  rw [h]

theorem runFor_succ_of_step {s t : State} (h : s.runState = .running) (hstep : step s = .next t) (n : Nat) :
    runFor (n + 1) s = runFor n t := by
  rw [runFor, h]
  simp only [hstep]

/-- A run that finishes within its bound gives the same result under a larger one. -/
theorem runFor_mono {n m : Nat} {s : State} (hnm : n ≤ m) (hfin : runFor n s ≠ .didNotFinish) :
    runFor m s = runFor n s := by
  induction n generalizing m s with
  | zero =>
    cases hr : s.runState with
    | running => exact absurd (runFor_zero_of_running hr) hfin
    | halted => rw [runFor_of_halted hr, runFor_of_halted hr]
    | faulted k => rw [runFor_of_faulted hr, runFor_of_faulted hr]
  | succ n ih =>
    cases hr : s.runState with
    | running =>
      obtain ⟨t, hstep⟩ := step_next_of_running hr
      obtain ⟨m, rfl⟩ : ∃ m', m = m' + 1 := ⟨m - 1, by omega⟩
      rw [runFor_succ_of_step hr hstep] at hfin ⊢
      rw [runFor_succ_of_step hr hstep]
      exact ih (Nat.le_of_succ_le_succ hnm) hfin
    | halted => rw [runFor_of_halted hr, runFor_of_halted hr]
    | faulted k => rw [runFor_of_faulted hr, runFor_of_faulted hr]

/-- Settles O14: by induction on the smaller bound, with one step of a Running machine on both sides. -/
theorem runResultIsStableInTheStepBound : Obligations.RunResultIsStableInTheStepBound :=
  ⟨fun _ _ _ => runFor_mono, fun n _ _ h => runFor_of_faulted h n⟩

end Sys2Proof.Machine

/-! PROOFS. What each instruction does when its operands resolve and it completes (spec/41 to 46), and where it continues when it
writes register 31. -/

namespace Sys2Proof.Machine

/-! ### The meaning of each instruction, as one equation -/

section Meanings

variable (s : State) (imm : BitVec 6) (dst a b c target r src len size : Operand)

@[simp] theorem exec_loadLow :
    exec (.loadLow r imm) s = .next (s.orRaise (s.rd r) fun old => s.wrAdvance r (withLow old imm)) := rfl
@[simp] theorem exec_loadHigh :
    exec (.loadHigh r imm) s = .next (s.orRaise (s.rd r) fun old => s.wrAdvance r (withHigh old imm)) := rfl
@[simp] theorem exec_move : exec (.move dst src) s = .next (s.orRaise (s.rd src) fun v => s.wrAdvance dst v) := rfl
@[simp] theorem exec_add : exec (.add dst a b) s = .next (s.alu addFn dst a b) := rfl
@[simp] theorem exec_subtract : exec (.subtract dst a b) s = .next (s.alu subtractFn dst a b) := rfl
@[simp] theorem exec_multiply : exec (.multiply dst a b) s = .next (s.alu multiplyFn dst a b) := rfl
@[simp] theorem exec_divide : exec (.divide dst a b) s = .next (s.alu divideFn dst a b) := rfl
@[simp] theorem exec_modulo : exec (.modulo dst a b) s = .next (s.alu moduloFn dst a b) := rfl
@[simp] theorem exec_bitAnd : exec (.bitAnd dst a b) s = .next (s.alu andFn dst a b) := rfl
@[simp] theorem exec_bitOr : exec (.bitOr dst a b) s = .next (s.alu orFn dst a b) := rfl
@[simp] theorem exec_equal : exec (.equal dst a b) s = .next (s.alu equalFn dst a b) := rfl
@[simp] theorem exec_notEqual : exec (.notEqual dst a b) s = .next (s.alu notEqualFn dst a b) := rfl
@[simp] theorem exec_greaterThan : exec (.greaterThan dst a b) s = .next (s.alu greaterThanFn dst a b) := rfl
@[simp] theorem exec_lessThan : exec (.lessThan dst a b) s = .next (s.alu lessThanFn dst a b) := rfl
@[simp] theorem exec_greaterThanEqual :
    exec (.greaterThanEqual dst a b) s = .next (s.alu greaterThanEqualFn dst a b) := rfl
@[simp] theorem exec_lessThanEqual : exec (.lessThanEqual dst a b) s = .next (s.alu lessThanEqualFn dst a b) := rfl
@[simp] theorem exec_alloc :
    exec (.alloc size dst) s = .next (s.orRaise (s.rd size) fun n => s.allocate n.toNat dst) := rfl
@[simp] theorem exec_memCopy :
    exec (.memCopy dst src len) s =
      .next (s.orRaise (s.rd dst) fun dw => s.orRaise (s.rd src) fun sw => s.orRaise (s.rd len) fun n =>
        s.copyAdvance (toAddress dw) (toAddress sw) n.toNat) := rfl
@[simp] theorem exec_currAddress : exec (.currAddress dst) s = .next (s.wrAdvance dst (s.reg 31)) := rfl
@[simp] theorem exec_jump : exec (.jump target) s = .next (s.jumpTo target) := rfl
@[simp] theorem exec_call : exec (.call target) s = .next (s.callTo target) := rfl
@[simp] theorem exec_jumpIf :
    exec (.jumpIf c target) s =
      .next (s.orRaise (s.rd c) fun w => if conditionHolds w then s.jumpTo target else s.advance) := rfl
@[simp] theorem exec_callIf :
    exec (.callIf c target) s =
      .next (s.orRaise (s.rd c) fun w => if conditionHolds w then s.callTo target else s.advance) := rfl
@[simp] theorem exec_push : exec (.push r) s = .next (s.orRaise (s.rd r) fun v => (s.push v).advance) := rfl

end Meanings

/-! ### Operands that resolve -/

/-- A direct operand always resolves. -/
theorem State.resolves_direct (s : State) {i : Nat} (hi : i < 32) : s.resolves ⟨false, i⟩ = true := by
  simp [State.resolves, hi]

/-- An instruction that reads a resolved operand goes on with its Word. -/
theorem State.orRaise_rd_of_resolves {s : State} {o : Operand} (h : s.resolves o = true) (k : Word → State) :
    s.orRaise (s.rd o) k = k (s.valueOf o) := by
  rw [State.rd_of_resolves h, State.orRaise_ok]

/-- Taking the top of a nonempty stack. -/
theorem State.pop_of_cons {s : State} {v : Word} {rest : List Word} (h : s.stack = v :: rest) :
    s.pop = .ok (v, { s with stack := rest }) := by
  unfold State.pop
  rw [h]

/-! ### Load immediate, Move, CurrAddress, Push, Pop -/

theorem withLow_eq (old : Word) (imm : BitVec 6) :
    withLow old imm = BitVec.ofNat 24 (old.toNat / 4096 * 4096 + imm.toNat) := by
  apply BitVec.eq_of_toNat_eq
  have hold := old.isLt
  have himm : (imm.setWidth 12).toNat = imm.toNat := by
    have := imm.isLt
    rw [BitVec.toNat_setWidth]
    omega
  rw [withLow, BitVec.toNat_append, ← Nat.shiftLeft_add_eq_or_of_lt (imm.setWidth 12).isLt, himm]
  have := imm.isLt
  simp only [BitVec.extractLsb'_toNat, BitVec.toNat_ofNat, Nat.shiftLeft_eq, Nat.shiftRight_eq_div_pow]
  omega

theorem withHigh_eq (old : Word) (imm : BitVec 6) :
    withHigh old imm = BitVec.ofNat 24 (imm.toNat * 4096 + old.toNat % 4096) := by
  apply BitVec.eq_of_toNat_eq
  have hlow := (old.extractLsb' 0 12).isLt
  have himm := imm.isLt
  rw [withHigh, BitVec.toNat_append, ← Nat.shiftLeft_add_eq_or_of_lt hlow]
  simp only [BitVec.extractLsb'_toNat, BitVec.toNat_ofNat, BitVec.toNat_setWidth, Nat.shiftLeft_eq,
    Nat.shiftRight_eq_div_pow]
  omega

section Completions

variable {s : State} {r : Operand}

theorem exec_loadLow_of_resolves (imm : BitVec 6) (h : s.resolves r = true) :
    exec (.loadLow r imm) s =
      .next (s.stored r (BitVec.ofNat 24 ((s.valueOf r).toNat / 4096 * 4096 + imm.toNat))).advance := by
  rw [exec_loadLow, State.orRaise_rd_of_resolves h, State.wrAdvance_of_resolves _ h, withLow_eq]

theorem exec_loadHigh_of_resolves (imm : BitVec 6) (h : s.resolves r = true) :
    exec (.loadHigh r imm) s =
      .next (s.stored r (BitVec.ofNat 24 (imm.toNat * 4096 + (s.valueOf r).toNat % 4096))).advance := by
  rw [exec_loadHigh, State.orRaise_rd_of_resolves h, State.wrAdvance_of_resolves _ h, withHigh_eq]

theorem exec_move_of_resolves {dst src : Operand} (hsrc : s.resolves src = true) (hdst : s.resolves dst = true) :
    exec (.move dst src) s = .next (s.stored dst (s.valueOf src)).advance := by
  rw [exec_move, State.orRaise_rd_of_resolves hsrc, State.wrAdvance_of_resolves _ hdst]

theorem exec_currAddress_of_resolves (h : s.resolves r = true) :
    exec (.currAddress r) s = .next (s.stored r (s.reg 31)).advance := by
  rw [exec_currAddress, State.wrAdvance_of_resolves _ h]

theorem exec_push_of_resolves (h : s.resolves r = true) :
    exec (.push r) s = .next (State.advance { s with stack := s.valueOf r :: s.stack }) := by
  rw [exec_push, State.orRaise_rd_of_resolves h]
  rfl

/-- Whether an operand resolves does not depend on the stack. -/
theorem exec_pop_of_cons {v : Word} {rest : List Word} (hs : s.stack = v :: rest) (h : s.resolves r = true) :
    exec (.pop r) s = .next (State.stored { s with stack := rest } r v).advance := by
  have h' : State.resolves { s with stack := rest } r = true := h
  rw [exec_pop, State.pop_of_cons hs, State.orRaise_ok, State.wrAdvance_of_resolves _ h']

end Completions

/-- Settles O21: the two immediates' Words in arithmetic are `withLow_eq` and `withHigh_eq`. -/
theorem loadImmediateCompletes : Obligations.LoadImmediateCompletes :=
  fun _ _ imm h => ⟨exec_loadLow_of_resolves imm h, exec_loadHigh_of_resolves imm h⟩

/-- Settles O22: one read and one write, both of which resolve. -/
theorem moveCompletes : Obligations.MoveCompletes :=
  fun _ _ _ hsrc hdst => exec_move_of_resolves hsrc hdst

/-- Settles O33: the Word stored is that of register 31, read before the advance. -/
theorem currAddressCompletes : Obligations.CurrAddressCompletes :=
  fun _ _ h => exec_currAddress_of_resolves h

/-- Settles O40: the stack of the next state is a push, or the rest under the top. -/
theorem pushAndPopComplete : Obligations.PushAndPopComplete :=
  fun _ _ h => ⟨exec_push_of_resolves h, fun _ _ hs => exec_pop_of_cons hs h⟩

/-! ### The thirteen functions of the ALU -/

section AluFunctions

variable (va vb : Word)

/-- Truncation of a natural number. -/
theorem trunc24_natCast (n : Nat) : trunc24 (n : Int) = BitVec.ofNat 24 n := BitVec.ofInt_natCast 24 n

theorem addFn_eq : addFn va vb = .ok (BitVec.ofNat 24 (va.toNat + vb.toNat)) := by
  rw [addFn, ← Nat.cast_add, trunc24_natCast]

theorem subtractFn_eq : subtractFn va vb = .ok (BitVec.ofNat 24 (va.toNat + 2 ^ 24 - vb.toNat)) := by
  have ha := va.isLt
  have hb := vb.isLt
  refine congrArg Except.ok (BitVec.eq_of_toNat_eq ?_)
  rw [trunc24, BitVec.toNat_ofInt, BitVec.toNat_ofNat]
  omega

theorem multiplyFn_eq : multiplyFn va vb = .ok (BitVec.ofNat 24 (va.toNat * vb.toNat)) := by
  rw [multiplyFn, ← Nat.cast_mul, trunc24_natCast]

variable {vb} in
theorem divideFn_of_ne (hb : vb ≠ 0#24) : divideFn va vb = .ok (BitVec.ofNat 24 (va.toNat / vb.toNat)) := by
  rw [divideFn, if_neg hb, trunc24_natCast]

variable {vb} in
theorem moduloFn_of_ne (hb : vb ≠ 0#24) : moduloFn va vb = .ok (BitVec.ofNat 24 (va.toNat % vb.toNat)) := by
  rw [moduloFn, if_neg hb, trunc24_natCast]

theorem divideFn_zero : divideFn va 0#24 = .error .arithmeticFault := if_pos rfl

theorem moduloFn_zero : moduloFn va 0#24 = .error .arithmeticFault := if_pos rfl

/-- The truth Word of a relation decided on the values. -/
theorem truthWord_decide (p : Prop) [Decidable p] : truthWord (decide p) = if p then 1#24 else 0#24 := by
  simp [truthWord]

theorem equalFn_eq : equalFn va vb = .ok (if va = vb then 1#24 else 0#24) := by
  simp only [equalFn, truthWord_decide, BitVec.toNat_inj]

theorem notEqualFn_eq : notEqualFn va vb = .ok (if va = vb then 0#24 else 1#24) := by
  simp only [notEqualFn, truthWord_decide, ne_eq, BitVec.toNat_inj, ite_not]

theorem greaterThanFn_eq : greaterThanFn va vb = .ok (if vb.toNat < va.toNat then 1#24 else 0#24) := by
  rw [greaterThanFn, truthWord_decide]

theorem lessThanFn_eq : lessThanFn va vb = .ok (if va.toNat < vb.toNat then 1#24 else 0#24) := by
  rw [lessThanFn, truthWord_decide]

theorem greaterThanEqualFn_eq : greaterThanEqualFn va vb = .ok (if va.toNat < vb.toNat then 0#24 else 1#24) := by
  simp only [greaterThanEqualFn, truthWord_decide, ge_iff_le, ← Nat.not_lt, ite_not]

theorem lessThanEqualFn_eq : lessThanEqualFn va vb = .ok (if vb.toNat < va.toNat then 0#24 else 1#24) := by
  simp only [lessThanEqualFn, truthWord_decide, ← Nat.not_lt, ite_not]

end AluFunctions

/-! ### The thirteen ALU instructions -/

section Alu

variable {s : State} {dst a b : Operand} (ha : s.resolves a = true) (hb : s.resolves b = true)
include ha hb

/-- With both sources resolved an ALU instruction is its function of their Words. -/
theorem State.alu_of_resolves (f : Word → Word → Except ErrorKind Word) :
    s.alu f dst a b = s.orRaise (f (s.valueOf a) (s.valueOf b)) fun v => s.wrAdvance dst v := by
  rw [State.alu, State.orRaise_rd_of_resolves ha, State.orRaise_rd_of_resolves hb]

/-- An ALU instruction that completes: the Word its function gives is stored. -/
theorem State.next_alu {f : Word → Word → Except ErrorKind Word} {v : Word} (hd : s.resolves dst = true)
    (hf : f (s.valueOf a) (s.valueOf b) = .ok v) :
    (.next (s.alu f dst a b) : Host.Outcome State Fault Refusal) = .next (s.stored dst v).advance := by
  rw [State.alu_of_resolves ha hb, hf, State.orRaise_ok, State.wrAdvance_of_resolves v hd]

end Alu

/-- A Word is a number modulo 2^24. -/
theorem word_ofNat_mod (n : Nat) : (BitVec.ofNat 24 (n % 2 ^ 24) : Word) = BitVec.ofNat 24 n := by
  apply BitVec.eq_of_toNat_eq
  rw [BitVec.toNat_ofNat, BitVec.toNat_ofNat, Nat.mod_mod]

/-- Settles O23: the value of each function is already a residue, or `BitVec.ofNat` takes it. -/
theorem arithmeticCompletes : Obligations.ArithmeticCompletes := by
  intro s dst a b ha hb hd
  have hadd := addFn_eq (s.valueOf a) (s.valueOf b)
  have hsub := subtractFn_eq (s.valueOf a) (s.valueOf b)
  have hmul := multiplyFn_eq (s.valueOf a) (s.valueOf b)
  have hdiff : BitVec.ofNat 24 ((s.valueOf a).toNat + 2 ^ 24 - (s.valueOf b).toNat) =
      BitVec.ofNat 24 (if (s.valueOf b).toNat ≤ (s.valueOf a).toNat then (s.valueOf a).toNat - (s.valueOf b).toNat
        else (s.valueOf a).toNat + 2 ^ 24 - (s.valueOf b).toNat) := by
    apply BitVec.eq_of_toNat_eq
    simp only [BitVec.toNat_ofNat]
    split <;> omega
  rw [← word_ofNat_mod] at hadd hmul
  rw [hdiff] at hsub
  exact ⟨State.next_alu ha hb hd hadd, State.next_alu ha hb hd hsub, State.next_alu ha hb hd hmul⟩

/-- A Word is nonzero when its value is. -/
theorem toNat_pos_of_ne_zero {w : Word} (h : w ≠ 0#24) : 0 < w.toNat :=
  Nat.pos_of_ne_zero fun h0 => h (BitVec.eq_of_toNat_eq h0)

/-- Settles O24: the quotient and the remainder of the two values fit a Word. -/
theorem divisionCompletes : Obligations.DivisionCompletes := by
  intro s dst a b ha hb hd hne
  have hpos := toNat_pos_of_ne_zero hne
  have hquot : (BitVec.ofNat 24 ((s.valueOf a).toNat / (s.valueOf b).toNat)).toNat =
      (s.valueOf a).toNat / (s.valueOf b).toNat := by
    rw [BitVec.toNat_ofNat]
    exact Nat.mod_eq_of_lt (lt_of_le_of_lt (Nat.div_le_self _ _) (s.valueOf a).isLt)
  have hrem : (BitVec.ofNat 24 ((s.valueOf a).toNat % (s.valueOf b).toNat)).toNat =
      (s.valueOf a).toNat % (s.valueOf b).toNat := by
    rw [BitVec.toNat_ofNat]
    exact Nat.mod_eq_of_lt (lt_of_le_of_lt (Nat.mod_le _ _) (s.valueOf a).isLt)
  refine ⟨_, _, ?equation, ?bound, State.next_alu ha hb hd (divideFn_of_ne _ hne),
    State.next_alu ha hb hd (moduloFn_of_ne _ hne)⟩
  case equation => rw [hquot, hrem, Nat.div_add_mod']
  case bound => rw [hrem]; exact Nat.mod_lt _ hpos

/-- Settles O25: the library's bits of `&&&` and `|||`. -/
theorem bitwiseCompletes : Obligations.BitwiseCompletes := by
  intro s dst a b ha hb hd
  have hand : ∀ i, (s.valueOf a &&& s.valueOf b).getLsbD i = true ↔
      (s.valueOf a).getLsbD i = true ∧ (s.valueOf b).getLsbD i = true := fun i => by
    rw [BitVec.getLsbD_and, Bool.and_eq_true]
  have hor : ∀ i, (s.valueOf a ||| s.valueOf b).getLsbD i = true ↔
      (s.valueOf a).getLsbD i = true ∨ (s.valueOf b).getLsbD i = true := fun i => by
    rw [BitVec.getLsbD_or, Bool.or_eq_true]
  exact ⟨_, _, hand, hor, State.next_alu ha hb hd rfl, State.next_alu ha hb hd rfl⟩

/-- Settles O26: each truth Word is that of its function. -/
theorem comparisonsComplete : Obligations.ComparisonsComplete :=
  fun _ _ _ _ ha hb hd =>
    ⟨State.next_alu ha hb hd (equalFn_eq _ _), State.next_alu ha hb hd (notEqualFn_eq _ _),
      State.next_alu ha hb hd (greaterThanFn_eq _ _), State.next_alu ha hb hd (lessThanFn_eq _ _),
      State.next_alu ha hb hd (greaterThanEqualFn_eq _ _), State.next_alu ha hb hd (lessThanEqualFn_eq _ _)⟩

/-! ### Alloc -/

/-- The state with `output` materialized and `n` more cells reserved: where an Alloc that fits writes from. -/
def State.reserving (s : State) (n : Nat) : State :=
  { s with output := some (s.output.getD ⟨s.program.width, s.program.height, []⟩), allocNext := s.allocNext + n }

theorem State.materialize_eq (s : State) :
    s.materialize = { s with output := some (s.output.getD ⟨s.program.width, s.program.height, []⟩) } := by
  obtain ⟨regs, stack, runState, program, input, output, allocNext⟩ := s
  cases output <;> rfl

/-- A reservation changes no register and no Word of `program`, so it changes no operand. -/
theorem State.resolves_reserving (s : State) (n : Nat) (o : Operand) : (s.reserving n).resolves o = s.resolves o := rfl

section Allocate

variable {s : State} {n : Nat} (dst : Operand)

theorem State.allocate_of_fits (h : s.allocNext + n ≤ s.program.width * s.program.height) :
    s.allocate n dst = (s.reserving n).wrAdvance dst s.allocBase := by
  have hfit : ¬ s.allocNext + n > s.outputCap := Nat.not_lt.mpr h
  rw [State.allocate, if_neg hfit, State.materialize_eq]
  rfl

theorem State.allocate_of_not_fits (h : s.program.width * s.program.height < s.allocNext + n) :
    s.allocate n dst = s.materialize.raise .addressOutOfBounds := if_pos h

end Allocate

section Alloc

variable {s : State} {size : Operand} (hsize : s.resolves size = true)
include hsize

theorem exec_alloc_of_fits (hfit : s.allocNext + (s.valueOf size).toNat ≤ s.program.width * s.program.height)
    (dst : Operand) :
    exec (.alloc size dst) s = .next ((s.reserving (s.valueOf size).toNat).wrAdvance dst s.allocBase) := by
  rw [exec_alloc, State.orRaise_rd_of_resolves hsize, State.allocate_of_fits dst hfit]

theorem exec_alloc_of_not_fits (hfull : s.program.width * s.program.height < s.allocNext + (s.valueOf size).toNat)
    (dst : Operand) : exec (.alloc size dst) s = .next (s.materialize.raise .addressOutOfBounds) := by
  rw [exec_alloc, State.orRaise_rd_of_resolves hsize, State.allocate_of_not_fits dst hfull]

end Alloc

/-- An Alloc that fits and whose destination resolves. -/
theorem exec_alloc_of_resolves {s : State} {size dst : Operand} (hsize : s.resolves size = true)
    (hdst : s.resolves dst = true) (hfit : s.allocNext + (s.valueOf size).toNat ≤ s.program.width * s.program.height) :
    exec (.alloc size dst) s = .next ((s.reserving (s.valueOf size).toNat).stored dst s.allocBase).advance := by
  rw [exec_alloc_of_fits hsize hfit, State.wrAdvance_of_resolves]
  rwa [State.resolves_reserving]

/-- Settles O27: the state written from is `reserving`, and the Word is `allocBase`. -/
theorem allocCompletes : Obligations.AllocCompletes :=
  fun _ _ _ hsize hdst hfit => exec_alloc_of_resolves hsize hdst hfit

/-- Settles O28: the fit is tested after `output` is materialized and before the reservation. -/
theorem allocThatDoesNotFitFaults : Obligations.AllocThatDoesNotFitFaults := by
  intro s size dst hsize hfull
  rw [exec_alloc_of_not_fits hsize hfull dst, State.materialize_eq]
  rfl

/-- Settles O29: in a grid of at most 4096 by 4096 the quotient and the remainder of `alloc_next` by the width are a coordinate that
a Word holds. -/
theorem allocBaseIsTheNextFreeCell : Obligations.AllocBaseIsTheNextFreeCell := by
  intro s hwf hfree
  obtain ⟨hp, -, -⟩ := s.wf_iff.mp hwf
  obtain ⟨hw1, hw, -, hh, -⟩ := s.program.wf_iff.mp hp
  have hcol : s.allocNext % s.program.width < s.program.width := Nat.mod_lt _ hw1
  have hrow : s.allocNext / s.program.width < s.program.height := Nat.div_lt_of_lt_mul hfree
  have hbase : toAddress s.allocBase = ⟨s.allocNext % s.program.width, s.allocNext / s.program.width⟩ := by
    rw [State.allocBase, Nat.mod_eq_of_lt (lt_of_lt_of_le hrow hh)]
    exact toAddress_fromAddress (lt_of_lt_of_le hcol hw) (lt_of_lt_of_le hrow hh)
  rw [hbase]
  exact ⟨(s.program.inBounds_iff _).mpr ⟨hcol, hrow⟩, Nat.div_add_mod' _ _⟩

/-! ### Writing register 31 -/

/-- An instruction that stored `v` in register 31 and advanced has continued after `v`. -/
theorem continuedAfter_of_stored {i : Instr} {s b : State} {v : Word}
    (h : exec i s = .next (b.stored ⟨false, 31⟩ v).advance) : exec i s = .next (b.continuedAfter v) := by
  rw [h, State.advance_stored_ip]

/-- Settles O48: each instruction completes with the Word listed for it, and register 31 always resolves. -/
theorem writingRegister31ContinuesAtTheSuccessor : Obligations.WritingRegister31ContinuesAtTheSuccessor := by
  intro s a b imm ha hb
  have hip : s.resolves ⟨false, 31⟩ = true := s.resolves_direct (by decide)
  have halu {f : Word → Word → Except ErrorKind Word} {v : Word} (hf : f (s.valueOf a) (s.valueOf b) = .ok v) :
      (.next (s.alu f ⟨false, 31⟩ a b) : Host.Outcome State Fault Refusal) = .next (s.continuedAfter v) := by
    rw [State.next_alu ha hb hip hf, State.advance_stored_ip]
  refine ⟨fun i v hiv => ?_, fun hne => ⟨halu (divideFn_of_ne _ hne), halu (moduloFn_of_ne _ hne)⟩,
    fun hfit => continuedAfter_of_stored (exec_alloc_of_resolves ha hip hfit),
    fun _ _ hs => continuedAfter_of_stored (exec_pop_of_cons hs hip)⟩
  simp only [List.mem_cons, Prod.mk.injEq, List.not_mem_nil, or_false] at hiv
  rcases hiv with ⟨rfl, rfl⟩ | ⟨rfl, rfl⟩ | ⟨rfl, rfl⟩ | ⟨rfl, rfl⟩ | ⟨rfl, rfl⟩ | ⟨rfl, rfl⟩ | ⟨rfl, rfl⟩ | ⟨rfl, rfl⟩ |
    ⟨rfl, rfl⟩ | ⟨rfl, rfl⟩ | ⟨rfl, rfl⟩ | ⟨rfl, rfl⟩ | ⟨rfl, rfl⟩ | ⟨rfl, rfl⟩ | ⟨rfl, rfl⟩
  · exact continuedAfter_of_stored (exec_loadLow_of_resolves imm hip)
  · exact continuedAfter_of_stored (exec_loadHigh_of_resolves imm hip)
  · exact continuedAfter_of_stored (exec_move_of_resolves ha hip)
  · exact halu (addFn_eq _ _)
  · exact halu (subtractFn_eq _ _)
  · exact halu (multiplyFn_eq _ _)
  · exact halu (f := andFn) rfl
  · exact halu (f := orFn) rfl
  · exact halu (equalFn_eq _ _)
  · exact halu (notEqualFn_eq _ _)
  · exact halu (greaterThanFn_eq _ _)
  · exact halu (lessThanFn_eq _ _)
  · exact halu (greaterThanEqualFn_eq _ _)
  · exact halu (lessThanEqualFn_eq _ _)
  · exact continuedAfter_of_stored (exec_currAddress_of_resolves hip)

end Sys2Proof.Machine

/-! PROOFS. The control transfers (spec/45_control_flow.md), and where an instruction raises and with which error
(spec/60_exceptions.md). -/

namespace Sys2Proof.Machine

/-! ### Operands that do not resolve -/

section Unresolved

variable {s : State} {o : Operand} (hwf : o.wf = true) (h : s.resolves o = false)
include hwf h

theorem State.rd_of_not_resolves : s.rd o = .error .addressOutOfBounds := by
  have hidx : o.idx < 32 := by simpa [Operand.wf] using hwf
  rcases s.rd_cases o with ⟨hr, _⟩ | ⟨_, _, _, e⟩ | ⟨_, hbig, _⟩
  · cases h.symm.trans hr
  · exact e
  · exact absurd hidx hbig

theorem State.wr_of_not_resolves (v : Word) : s.wr o v = .error .addressOutOfBounds := by
  have hidx : o.idx < 32 := by simpa [Operand.wf] using hwf
  rcases s.wr_cases o v with ⟨hr, _⟩ | ⟨_, _, _, e⟩ | ⟨_, hbig, _⟩
  · cases h.symm.trans hr
  · exact e
  · exact absurd hidx hbig

theorem State.wrAdvance_of_not_resolves (v : Word) : s.wrAdvance o v = s.raise .addressOutOfBounds := by
  rw [State.wrAdvance, State.wr_of_not_resolves hwf h, State.orRaise_error]

theorem State.orRaise_rd_of_not_resolves (k : Word → State) : s.orRaise (s.rd o) k = s.raise .addressOutOfBounds := by
  rw [State.rd_of_not_resolves hwf h, State.orRaise_error]

theorem State.target_of_not_resolves : s.target o = .error .addressOutOfBounds := by
  simp [State.target, State.rd_of_not_resolves hwf h]

end Unresolved

/-! ### The checked transfers -/

section Transfers

variable {s : State} {o : Operand}

theorem State.target_of_inBounds (h : s.resolves o = true) (hin : s.program.inBounds (toAddress (s.valueOf o)) = true) :
    s.target o = .ok (s.valueOf o) := by
  simp [State.target, State.rd_of_resolves h, hin]

theorem State.target_of_not_inBounds (h : s.resolves o = true)
    (hout : s.program.inBounds (toAddress (s.valueOf o)) = false) : s.target o = .error .addressOutOfBounds := by
  simp [State.target, State.rd_of_resolves h, hout]

/-- A target that fails its check ends Jump and Call alike. -/
theorem State.jumpTo_of_error {e : ErrorKind} (h : s.target o = .error e) : s.jumpTo o = s.raise e := by
  rw [State.jumpTo, h, State.orRaise_error]

theorem State.callTo_of_error {e : ErrorKind} (h : s.target o = .error e) : s.callTo o = s.raise e := by
  rw [State.callTo, h, State.orRaise_error]

theorem State.jumpTo_of_ok {w : Word} (h : s.target o = .ok w) : s.jumpTo o = s.setReg 31 w := by
  rw [State.jumpTo, h, State.orRaise_ok, State.redirect_eq]

theorem State.returnAddress_of_le (h : (nextPos s.program.width s.ip).y ≤ 4095) :
    s.returnAddress = .ok (fromAddress (nextPos s.program.width s.ip)) := if_neg (Nat.not_lt.mpr h)

theorem State.returnAddress_of_gt (h : 4095 < (nextPos s.program.width s.ip).y) :
    s.returnAddress = .error .addressOutOfBounds := if_pos h

theorem State.callTo_of_ok {w r : Word} (h : s.target o = .ok w) (hr : s.returnAddress = .ok r) :
    s.callTo o = (s.push r).setReg 31 w := by
  rw [State.callTo, h, State.orRaise_ok, hr, State.orRaise_ok, State.redirect_eq]

theorem State.callTo_of_no_successor {w : Word} (h : s.target o = .ok w)
    (hr : s.returnAddress = .error .addressOutOfBounds) : s.callTo o = s.raise .addressOutOfBounds := by
  rw [State.callTo, h, State.orRaise_ok, hr, State.orRaise_error]

end Transfers

/-! ### The conditional transfers -/

section Conditions

variable {s : State} {c : Operand} (hc : s.resolves c = true)
include hc

/-- JumpIf with a nonzero condition is Jump. -/
theorem exec_jumpIf_of_ne (hne : s.valueOf c ≠ 0#24) (o : Operand) : exec (.jumpIf c o) s = exec (.jump o) s := by
  have hcond : conditionHolds (s.valueOf c) = true := by simpa [conditionHolds] using hne
  rw [exec_jumpIf, State.orRaise_rd_of_resolves hc, if_pos hcond, exec_jump]

/-- CallIf with a nonzero condition is Call. -/
theorem exec_callIf_of_ne (hne : s.valueOf c ≠ 0#24) (o : Operand) : exec (.callIf c o) s = exec (.call o) s := by
  have hcond : conditionHolds (s.valueOf c) = true := by simpa [conditionHolds] using hne
  rw [exec_callIf, State.orRaise_rd_of_resolves hc, if_pos hcond, exec_call]

theorem exec_jumpIf_of_zero (h0 : s.valueOf c = 0#24) (o : Operand) : exec (.jumpIf c o) s = .next s.advance := by
  rw [exec_jumpIf, State.orRaise_rd_of_resolves hc, h0]
  rfl

theorem exec_callIf_of_zero (h0 : s.valueOf c = 0#24) (o : Operand) : exec (.callIf c o) s = .next s.advance := by
  rw [exec_callIf, State.orRaise_rd_of_resolves hc, h0]
  rfl

end Conditions

/-- Settles O34: a taken JumpIf is the Jump, and an untaken one does not look at its target. -/
theorem jumpsComplete : Obligations.JumpsComplete := by
  intro s cond target
  refine ⟨fun ht hin => ?_, fun hc h0 => exec_jumpIf_of_zero hc h0 target⟩
  have hjump : exec (.jump target) s = .next (s.setReg 31 (s.valueOf target)) := by
    rw [exec_jump, State.jumpTo_of_ok (State.target_of_inBounds ht hin)]
  exact ⟨hjump, fun hc hne => (exec_jumpIf_of_ne hc hne target).trans hjump⟩

/-- Settles O35: with the target in bounds and the successor's row in 12 bits Call pushes and transfers; a taken CallIf is the
Call. -/
theorem callsComplete : Obligations.CallsComplete := by
  intro s cond target
  refine ⟨fun ht hin hrow => ⟨?_, fun hc hne => exec_callIf_of_ne hc hne target⟩,
    fun hc h0 => exec_callIf_of_zero hc h0 target⟩
  rw [exec_call, State.callTo_of_ok (State.target_of_inBounds ht hin) (State.returnAddress_of_le hrow)]
  rfl

/-- Settles O36: the target is checked first, then the successor, and nothing is pushed before both. -/
theorem badTransfersFault : Obligations.BadTransfersFault := by
  intro s cond target ht
  refine ⟨fun hout => ?outside, fun hin hrow => ?noSuccessor⟩
  case outside =>
    have htarget := State.target_of_not_inBounds ht hout
    have hjump : exec (.jump target) s = .next (s.raise .addressOutOfBounds) := by
      rw [exec_jump, State.jumpTo_of_error htarget]
    have hcall : exec (.call target) s = .next (s.raise .addressOutOfBounds) := by
      rw [exec_call, State.callTo_of_error htarget]
    exact ⟨hjump, hcall, fun hc hne =>
      ⟨(exec_jumpIf_of_ne hc hne target).trans hjump, (exec_callIf_of_ne hc hne target).trans hcall⟩⟩
  case noSuccessor =>
    have hcall : exec (.call target) s = .next (s.raise .addressOutOfBounds) := by
      rw [exec_call, State.callTo_of_no_successor (State.target_of_inBounds ht hin) (State.returnAddress_of_gt hrow)]
    exact ⟨hcall, fun hc hne => (exec_callIf_of_ne hc hne target).trans hcall⟩

theorem exec_ret_of_cons {s : State} {v : Word} {rest : List Word} (h : s.stack = v :: rest) :
    exec .ret s = .next (State.setReg { s with stack := rest } 31 v) := by
  rw [exec_ret, State.pop_of_cons h, State.orRaise_ok, State.redirect_eq]

/-- Settles O37: the popped Word goes to the IP with no check. -/
theorem returnCompletes : Obligations.ReturnCompletes :=
  fun _ _ _ h => exec_ret_of_cons h

/-- A Call that goes on found its target in bounds and a successor. -/
theorem exec_call_of_running {s t : State} {o : Operand} (h : exec (.call o) s = .next t) (hrun : t.runState = .running) :
    (nextPos s.program.width s.ip).y ≤ 4095 ∧
      t = (s.push (fromAddress (nextPos s.program.width s.ip))).setReg 31 (s.valueOf o) := by
  rw [exec_call, Host.Outcome.next.injEq] at h
  subst h
  rcases s.target_cases o with ⟨_, _, htarget⟩ | ⟨_, htarget | ⟨_, htarget⟩⟩
  · by_cases hrow : (nextPos s.program.width s.ip).y ≤ 4095
    · exact ⟨hrow, State.callTo_of_ok htarget (State.returnAddress_of_le hrow)⟩
    · rw [State.callTo_of_no_successor htarget (State.returnAddress_of_gt (Nat.lt_of_not_le hrow))] at hrun
      cases hrun
  · rw [State.callTo_of_error htarget] at hrun
    cases hrun
  · rw [State.callTo_of_error htarget] at hrun
    cases hrun

/-- The successor of an in-bounds coordinate has its column in 12 bits. -/
theorem nextPos_x_le {g : Grid} {c : Coord} (h : g.inBounds c = true) (hw : g.width ≤ 4096) :
    (nextPos g.width c).x ≤ 4095 := by
  have hx := nextPos_x_lt ((g.inBounds_iff c).mp h).1
  omega

/-- Settles O38: Return pops the Word Call pushed, and that Word encodes the successor exactly. -/
theorem callThenReturnRestoresTheSuccessor : Obligations.CallThenReturnRestoresTheSuccessor := by
  intro s t u target hrun hin hw hcall htrun hret
  obtain ⟨hrow, rfl⟩ := exec_call_of_running hcall htrun
  have hstack : ((s.push (fromAddress (nextPos s.program.width s.ip))).setReg 31 (s.valueOf target)).stack =
      fromAddress (nextPos s.program.width s.ip) :: s.stack := rfl
  rw [exec_ret_of_cons hstack, Host.Outcome.next.injEq] at hret
  subst hret
  have hip : toAddress (fromAddress (nextPos s.program.width s.ip)) = nextPos s.program.width s.ip :=
    toAddress_fromAddress_of_representable ((representable_iff _).mpr ⟨nextPos_x_le hin hw, hrow⟩)
  refine ⟨(State.ip_setReg_31 _ _).trans hip, rfl, fun r hr => ?_, rfl, hrun⟩
  rw [State.reg_setReg_ne _ _ _ _ hr.ne, State.reg_withStack, State.reg_setReg_ne _ _ _ _ hr.ne, State.reg_push]

end Sys2Proof.Machine

/-! PROOFS. Where an instruction raises, with which error and with what left in the state (spec/60_exceptions.md sections 1
and 2). -/

namespace Sys2Proof.Machine

/-! ### The ALU, operand by operand -/

section AluFaults

variable {s : State} {dst a b : Operand} (f : Word → Word → Except ErrorKind Word)

theorem State.alu_of_first_not_resolves (ha : a.wf = true) (h : s.resolves a = false) :
    s.alu f dst a b = s.raise .addressOutOfBounds :=
  State.orRaise_rd_of_not_resolves ha h _

theorem State.alu_of_second_not_resolves (ha : s.resolves a = true) (hb : b.wf = true) (h : s.resolves b = false) :
    s.alu f dst a b = s.raise .addressOutOfBounds := by
  rw [State.alu, State.orRaise_rd_of_resolves ha, State.orRaise_rd_of_not_resolves hb h]

variable {f}

theorem State.alu_of_error (ha : s.resolves a = true) (hb : s.resolves b = true) {e : ErrorKind}
    (hf : f (s.valueOf a) (s.valueOf b) = .error e) : s.alu f dst a b = s.raise e := by
  rw [State.alu_of_resolves ha hb, hf, State.orRaise_error]

theorem State.alu_of_dst_not_resolves (ha : s.resolves a = true) (hb : s.resolves b = true) {v : Word}
    (hf : f (s.valueOf a) (s.valueOf b) = .ok v) (hd : dst.wf = true) (h : s.resolves dst = false) :
    s.alu f dst a b = s.raise .addressOutOfBounds := by
  rw [State.alu_of_resolves ha hb, hf, State.orRaise_ok, State.wrAdvance_of_not_resolves hd h]

end AluFaults

/-- A source that does not resolve is reported whatever the function. -/
theorem State.alu_of_source_not_resolves {s : State} {dst a b : Operand} (f : Word → Word → Except ErrorKind Word)
    (ha : a.wf = true) (hb : b.wf = true) (h : (s.resolves a && s.resolves b) = false) :
    s.alu f dst a b = s.raise .addressOutOfBounds := by
  cases hra : s.resolves a with
  | false => exact State.alu_of_first_not_resolves f ha hra
  | true =>
    rw [hra, Bool.true_and] at h
    exact State.alu_of_second_not_resolves f hra hb h

theorem Operand.wf_of_lt {o : Operand} (h : o.idx < 32) : o.wf = true := by
  simpa [Operand.wf] using h

/-- Settles O41: both sources are read before the divisor is tested, and the destination is not reached. -/
theorem divisionByZeroFaults : Obligations.DivisionByZeroFaults := by
  intro s dst a b
  refine ⟨fun ha hb h0 => ?zero, fun ha hb h => ?unresolved⟩
  case zero =>
    have hdiv : divideFn (s.valueOf a) (s.valueOf b) = .error .arithmeticFault := by rw [h0, divideFn_zero]
    have hmod : moduloFn (s.valueOf a) (s.valueOf b) = .error .arithmeticFault := by rw [h0, moduloFn_zero]
    exact ⟨congrArg Host.Outcome.next (State.alu_of_error ha hb hdiv),
      congrArg Host.Outcome.next (State.alu_of_error ha hb hmod)⟩
  case unresolved =>
    have halu (f : Word → Word → Except ErrorKind Word) : s.alu f dst a b = s.raise .addressOutOfBounds :=
      State.alu_of_source_not_resolves f (Operand.wf_of_lt ha) (Operand.wf_of_lt hb) h
    exact ⟨congrArg Host.Outcome.next (halu divideFn), congrArg Host.Outcome.next (halu moduloFn)⟩

/-! ### Every operand position -/

/-- The outcome of an instruction that raises AddressOutOfBounds and changes nothing else. -/
def State.outOfBounds (s : State) : Host.Outcome State Fault Refusal := .next (s.raise .addressOutOfBounds)

section Positions

variable {s : State} {o : Operand} (hwf : o.wf = true) (h : s.resolves o = false)
include hwf h

/-- The first operand an instruction reads, or the only one it writes. -/
theorem exec_of_first_not_resolves (p q : Operand) (imm : BitVec 6) :
    ∀ i ∈ [Instr.loadLow o imm, .loadHigh o imm, .move p o, .add p o q, .subtract p o q, .multiply p o q, .divide p o q,
        .modulo p o q, .bitAnd p o q, .bitOr p o q, .equal p o q, .notEqual p o q, .greaterThan p o q, .lessThan p o q,
        .greaterThanEqual p o q, .lessThanEqual p o q, .alloc o p, .memCopy o p q, .currAddress o, .jump o, .call o,
        .jumpIf o p, .callIf o p, .push o],
      exec i s = s.outOfBounds := by
  have hrd (k : Word → State) := State.orRaise_rd_of_not_resolves hwf h k
  have hwr := State.wrAdvance_of_not_resolves hwf h
  have halu (f : Word → Word → Except ErrorKind Word) : s.alu f p o q = s.raise .addressOutOfBounds :=
    State.alu_of_first_not_resolves f hwf h
  have htarget := State.target_of_not_resolves hwf h
  have hjump := State.jumpTo_of_error htarget
  have hcall := State.callTo_of_error htarget
  simp [State.outOfBounds, hrd, hwr, halu, hjump, hcall]

/-- The second operand read, or the destination of a Move whose source resolves. -/
theorem exec_of_second_not_resolves {p : Operand} (hp : s.resolves p = true) (q : Operand) :
    ∀ i ∈ [Instr.add q p o, .subtract q p o, .multiply q p o, .divide q p o, .modulo q p o, .bitAnd q p o,
        .bitOr q p o, .equal q p o, .notEqual q p o, .greaterThan q p o, .lessThan q p o, .greaterThanEqual q p o,
        .lessThanEqual q p o, .memCopy p o q, .move o p],
      exec i s = s.outOfBounds := by
  have hfirst (k : Word → State) := State.orRaise_rd_of_resolves hp k
  have hrd (k : Word → State) := State.orRaise_rd_of_not_resolves hwf h k
  have hwr := State.wrAdvance_of_not_resolves hwf h
  have halu (f : Word → Word → Except ErrorKind Word) : s.alu f q p o = s.raise .addressOutOfBounds :=
    State.alu_of_second_not_resolves f hp hwf h
  simp [State.outOfBounds, hfirst, hrd, hwr, halu]

/-- The target of a conditional transfer that is taken. -/
theorem exec_of_taken_not_resolves {p : Operand} (hp : s.resolves p = true) (hne : s.valueOf p ≠ 0#24) :
    ∀ i ∈ [Instr.jumpIf p o, .callIf p o], exec i s = s.outOfBounds := by
  have htarget := State.target_of_not_resolves hwf h
  have hjump := State.jumpTo_of_error htarget
  have hcall := State.callTo_of_error htarget
  have hjumpIf := exec_jumpIf_of_ne hp hne o
  have hcallIf := exec_callIf_of_ne hp hne o
  simp only [List.forall_mem_cons, hjumpIf, hcallIf, exec_jump, exec_call, hjump, hcall]
  exact ⟨rfl, rfl, by simp⟩

/-- The third operand read, or the destination of an ALU instruction that has its result. -/
theorem exec_of_third_not_resolves {p q : Operand} (hp : s.resolves p = true) (hq : s.resolves q = true) :
    ∀ i ∈ [Instr.memCopy p q o, .add o p q, .subtract o p q, .multiply o p q, .bitAnd o p q,
        .bitOr o p q, .equal o p q, .notEqual o p q, .greaterThan o p q, .lessThan o p q, .greaterThanEqual o p q,
        .lessThanEqual o p q],
      exec i s = s.outOfBounds := by
  have hfirst (k : Word → State) := State.orRaise_rd_of_resolves hp k
  have hsecond (k : Word → State) := State.orRaise_rd_of_resolves hq k
  have hrd (k : Word → State) := State.orRaise_rd_of_not_resolves hwf h k
  have halu {f : Word → Word → Except ErrorKind Word} {v : Word} (hf : f (s.valueOf p) (s.valueOf q) = .ok v) :
      s.alu f o p q = s.raise .addressOutOfBounds := State.alu_of_dst_not_resolves hp hq hf hwf h
  simp [State.outOfBounds, hfirst, hsecond, hrd, halu (addFn_eq _ _), halu (subtractFn_eq _ _),
    halu (multiplyFn_eq _ _), halu (f := andFn) rfl, halu (f := orFn) rfl, halu (equalFn_eq _ _),
    halu (notEqualFn_eq _ _), halu (greaterThanFn_eq _ _), halu (lessThanFn_eq _ _), halu (greaterThanEqualFn_eq _ _),
    halu (lessThanEqualFn_eq _ _)]

/-- The destination of a division by a nonzero divisor. -/
theorem exec_division_of_dst_not_resolves {p q : Operand} (hp : s.resolves p = true) (hq : s.resolves q = true)
    (hne : s.valueOf q ≠ 0#24) : ∀ i ∈ [Instr.divide o p q, .modulo o p q], exec i s = s.outOfBounds := by
  have hdiv := State.alu_of_dst_not_resolves hp hq (divideFn_of_ne _ hne) hwf h
  have hmod := State.alu_of_dst_not_resolves hp hq (moduloFn_of_ne _ hne) hwf h
  simp [State.outOfBounds, hdiv, hmod]

/-- The destination of an Alloc that fits: the reservation is made. -/
theorem exec_alloc_of_dst_not_resolves {p : Operand} (hp : s.resolves p = true)
    (hfit : s.allocNext + (s.valueOf p).toNat ≤ s.program.width * s.program.height) :
    exec (.alloc p o) s = (s.reserving (s.valueOf p).toNat).outOfBounds := by
  have h' : (s.reserving (s.valueOf p).toNat).resolves o = false := h
  rw [exec_alloc_of_fits hp hfit, State.wrAdvance_of_not_resolves hwf h', State.outOfBounds]

/-- The destination of a Pop: the Word is off the stack. -/
theorem exec_pop_of_dst_not_resolves {v : Word} {rest : List Word} (hs : s.stack = v :: rest) :
    exec (.pop o) s = State.outOfBounds { s with stack := rest } := by
  have h' : State.resolves { s with stack := rest } o = false := h
  rw [exec_pop, State.pop_of_cons hs, State.orRaise_ok, State.wrAdvance_of_not_resolves hwf h', State.outOfBounds]

end Positions

/-- Settles O43: one lemma for each operand position, in the order of the pseudocode. -/
theorem unresolvedOperandsFault : Obligations.UnresolvedOperandsFault :=
  fun _ _ p q imm hwf h =>
    ⟨exec_of_first_not_resolves hwf h p q imm, fun hp => exec_of_second_not_resolves hwf h hp q,
      fun hp hne => exec_of_taken_not_resolves hwf h hp hne, fun hp hq => exec_of_third_not_resolves hwf h hp hq,
      fun hp hq hne => exec_division_of_dst_not_resolves hwf h hp hq hne,
      fun hp hfit => exec_alloc_of_dst_not_resolves hwf h hp hfit,
      fun _ _ hs => exec_pop_of_dst_not_resolves hwf h hs⟩

end Sys2Proof.Machine

/-! PROOFS. Which error kinds an instruction can raise (spec/60_exceptions.md section 1; D26): `RaisesOnly` goes through an
instruction's operations as its meaning is put together. -/

namespace Sys2Proof.Machine

/-- If the state is Faulted, its error kind is one of `P`. -/
def State.RaisesOnly (t : State) (P : ErrorKind → Prop) : Prop := ∀ k, t.runState = .faulted k → P k

section RaisesOnly

variable {s t : State} {P Q : ErrorKind → Prop}

theorem State.RaisesOnly.mono (h : t.RaisesOnly P) (hPQ : ∀ k, P k → Q k) : t.RaisesOnly Q :=
  fun k hk => hPQ k (h k hk)

theorem State.RaisesOnly.raise {k : ErrorKind} (hk : P k) : (s.raise k).RaisesOnly P := by
  rintro _ ⟨⟩
  exact hk

theorem State.RaisesOnly.of_running (h : t.runState = .running) : t.RaisesOnly P := by
  intro k hk
  cases h.symm.trans hk

/-- An advance does not raise. -/
theorem State.RaisesOnly.advance (h : t.runState = .running) : t.advance.RaisesOnly P := by
  intro k hk
  rcases t.advance_runState with e | e
  · cases (e.trans h).symm.trans hk
  · cases e.symm.trans hk

theorem State.RaisesOnly.orRaise {α : Type} {r : Except ErrorKind α} {f : α → State} (herr : ∀ e, r = .error e → P e)
    (hok : ∀ a, r = .ok a → (f a).RaisesOnly P) : (s.orRaise r f).RaisesOnly P := by
  cases r with
  | ok a => exact hok a rfl
  | error e => exact .raise (herr e rfl)

end RaisesOnly

/-! ### The operations of a well-formed instruction -/

section Operations

variable {s : State} {o : Operand} (hwf : o.wf = true)
include hwf

theorem State.eq_of_rd_error {e : ErrorKind} (h : s.rd o = .error e) : e = .addressOutOfBounds := by
  cases hr : s.resolves o with
  | true => cases (State.rd_of_resolves hr).symm.trans h
  | false => exact (Except.error.inj ((State.rd_of_not_resolves hwf hr).symm.trans h)).symm

theorem State.eq_of_target_error {e : ErrorKind} (h : s.target o = .error e) : e = .addressOutOfBounds := by
  have hidx : o.idx < 32 := by simpa [Operand.wf] using hwf
  rcases s.target_cases o with ⟨_, _, e'⟩ | ⟨_, e' | ⟨hbig, _⟩⟩
  · cases e'.symm.trans h
  · exact (Except.error.inj (e'.symm.trans h)).symm
  · exact absurd hidx hbig

/-- Reading an operand raises AddressOutOfBounds or goes on with its Word. -/
theorem State.RaisesOnly.read {P : ErrorKind → Prop} (hP : P .addressOutOfBounds) {f : Word → State}
    (hf : (f (s.valueOf o)).RaisesOnly P) : (s.orRaise (s.rd o) f).RaisesOnly P := by
  refine .orRaise (fun e he => State.eq_of_rd_error hwf he ▸ hP) fun w hw => ?_
  obtain ⟨-, rfl⟩ := State.valueOf_of_rd hw
  exact hf

/-- The write that ends an instruction raises AddressOutOfBounds or completes. -/
theorem State.RaisesOnly.wrAdvance {P : ErrorKind → Prop} (hP : P .addressOutOfBounds) (hrun : s.runState = .running)
    (v : Word) : (s.wrAdvance o v).RaisesOnly P := by
  cases hr : s.resolves o with
  | true =>
    rw [State.wrAdvance_of_resolves v hr]
    exact .advance ((s.stored_runState o v).trans hrun)
  | false =>
    rw [State.wrAdvance_of_not_resolves hwf hr]
    exact .raise hP

theorem State.RaisesOnly.jumpTo (hrun : s.runState = .running) : (s.jumpTo o).RaisesOnly (· = .addressOutOfBounds) :=
  .orRaise (fun _ => State.eq_of_target_error hwf) fun _ _ => .of_running hrun

theorem State.RaisesOnly.callTo (hrun : s.runState = .running) : (s.callTo o).RaisesOnly (· = .addressOutOfBounds) := by
  refine .orRaise (fun _ => State.eq_of_target_error hwf) fun w _ => .orRaise (fun e he => ?_) fun _ _ => .of_running hrun
  by_cases hrow : (nextPos s.program.width s.ip).y ≤ 4095
  · cases (State.returnAddress_of_le hrow).symm.trans he
  · exact (Except.error.inj ((State.returnAddress_of_gt (Nat.lt_of_not_le hrow)).symm.trans he)).symm

end Operations

/-- An ALU instruction raises AddressOutOfBounds, or what its function answers on the Words of its sources. -/
theorem State.RaisesOnly.alu {s : State} {P : ErrorKind → Prop} {f : Word → Word → Except ErrorKind Word}
    {dst a b : Operand} (hd : dst.wf = true) (ha : a.wf = true) (hb : b.wf = true) (hP : P .addressOutOfBounds)
    (hrun : s.runState = .running) (hf : ∀ e, f (s.valueOf a) (s.valueOf b) = .error e → P e) :
    (s.alu f dst a b).RaisesOnly P :=
  .read ha hP (.read hb hP (.orRaise hf fun v _ => .wrAdvance hd hP hrun v))

theorem eq_of_divideFn_error {va vb : Word} {e : ErrorKind} (h : divideFn va vb = .error e) :
    e = .arithmeticFault ∧ vb = 0#24 := by
  by_cases hb : vb = 0#24
  · subst hb
    exact ⟨(Except.error.inj ((divideFn_zero va).symm.trans h)).symm, rfl⟩
  · cases (divideFn_of_ne va hb).symm.trans h

theorem eq_of_moduloFn_error {va vb : Word} {e : ErrorKind} (h : moduloFn va vb = .error e) :
    e = .arithmeticFault ∧ vb = 0#24 := by
  by_cases hb : vb = 0#24
  · subst hb
    exact ⟨(Except.error.inj ((moduloFn_zero va).symm.trans h)).symm, rfl⟩
  · cases (moduloFn_of_ne va hb).symm.trans h

/-- What a well-formed instruction may raise at `s`. -/
def MayRaise (i : Instr) (s : State) (k : ErrorKind) : Prop :=
  (k = .addressOutOfBounds) ∨
  (k = .stackUnderflow ∧ s.stack = [] ∧ (i = .ret ∨ ∃ r, i = .pop r)) ∨
  (k = .arithmeticFault ∧ ∃ dst a b, (i = .divide dst a b ∨ i = .modulo dst a b) ∧ s.valueOf b = 0#24)

/-- Taking the top of the stack raises StackUnderflow on an empty one, or goes on. -/
theorem State.RaisesOnly.pop {i : Instr} {s : State} (hi : i = .ret ∨ ∃ r, i = .pop r) {f : Word × State → State}
    (hf : ∀ v rest, (f (v, { s with stack := rest })).RaisesOnly (MayRaise i s)) :
    (s.orRaise s.pop f).RaisesOnly (MayRaise i s) := by
  rcases s.pop_cases with ⟨hempty, e⟩ | ⟨v, rest, -, e⟩ <;> rw [e]
  · exact .raise (.inr (.inl ⟨rfl, hempty, hi⟩))
  · exact hf v rest

theorem State.RaisesOnly.allocate {s : State} {dst : Operand} (hd : dst.wf = true) (hrun : s.runState = .running) (n : Nat) :
    (s.allocate n dst).RaisesOnly (· = .addressOutOfBounds) := by
  by_cases hfit : s.allocNext + n ≤ s.program.width * s.program.height
  · have hrun' : (s.reserving n).runState = .running := hrun
    rw [State.allocate_of_fits dst hfit]
    exact State.RaisesOnly.wrAdvance (P := (· = .addressOutOfBounds)) hd rfl hrun' _
  · rw [State.allocate_of_not_fits dst (Nat.lt_of_not_le hfit)]
    exact .raise rfl

theorem State.RaisesOnly.copyAdvance {s : State} (hrun : s.runState = .running) (dst src : Coord) (n : Nat) :
    (s.copyAdvance dst src n).RaisesOnly (· = .addressOutOfBounds) := by
  obtain ⟨g, -, -, -, e | e⟩ := s.copyAdvance_cases dst src n <;> rw [e]
  · exact .advance hrun
  · exact .raise rfl

/-- The errors of each instruction, in the order of its operations. -/
theorem exec_raisesOnly {i : Instr} {s t : State} (hwf : i.wf = true) (hrun : s.runState = .running)
    (h : exec i s = .next t) : t.RaisesOnly (MayRaise i s) := by
  have hbounds : MayRaise i s .addressOutOfBounds := .inl rfl
  have hmono : ∀ k, k = .addressOutOfBounds → MayRaise i s k := fun _ => .inl
  have halu {f : Word → Word → Except ErrorKind Word} {dst a b : Operand}
      (hops : dst.wf = true ∧ a.wf = true ∧ b.wf = true)
      (hf : ∀ e, f (s.valueOf a) (s.valueOf b) = .error e → MayRaise i s e) :
      (s.alu f dst a b).RaisesOnly (MayRaise i s) := by
    obtain ⟨hd, ha, hb⟩ := hops
    exact .alu hd ha hb hbounds hrun hf
  cases i <;> injection h with h <;> subst h <;>
    simp only [Instr.wf, Instr.operands, List.all_cons, List.all_nil, Bool.and_true, Bool.and_eq_true] at hwf
  case loadLow r imm => exact .read hwf hbounds (.wrAdvance hwf hbounds hrun _)
  case loadHigh r imm => exact .read hwf hbounds (.wrAdvance hwf hbounds hrun _)
  case move dst src => exact .read hwf.2 hbounds (.wrAdvance hwf.1 hbounds hrun _)
  case add => exact halu hwf nofun
  case subtract => exact halu hwf nofun
  case multiply => exact halu hwf nofun
  case divide dst a b =>
    refine halu hwf fun e he => ?_
    obtain ⟨rfl, h0⟩ := eq_of_divideFn_error he
    exact .inr (.inr ⟨rfl, dst, a, b, .inl rfl, h0⟩)
  case modulo dst a b =>
    refine halu hwf fun e he => ?_
    obtain ⟨rfl, h0⟩ := eq_of_moduloFn_error he
    exact .inr (.inr ⟨rfl, dst, a, b, .inr rfl, h0⟩)
  case bitAnd => exact halu hwf nofun
  case bitOr => exact halu hwf nofun
  case equal => exact halu hwf nofun
  case notEqual => exact halu hwf nofun
  case greaterThan => exact halu hwf nofun
  case lessThan => exact halu hwf nofun
  case greaterThanEqual => exact halu hwf nofun
  case lessThanEqual => exact halu hwf nofun
  case alloc size dst =>
    obtain ⟨hsize, hdst⟩ := hwf
    exact .read hsize hbounds ((State.RaisesOnly.allocate hdst hrun _).mono hmono)
  case memCopy dst src len =>
    obtain ⟨hdst, hsrc, hlen⟩ := hwf
    exact .read hdst hbounds (.read hsrc hbounds (.read hlen hbounds ((State.RaisesOnly.copyAdvance hrun _ _ _).mono hmono)))
  case currAddress dst => exact .wrAdvance hwf hbounds hrun _
  case jump target => exact (State.RaisesOnly.jumpTo hwf hrun).mono hmono
  case call target => exact (State.RaisesOnly.callTo hwf hrun).mono hmono
  case jumpIf c target =>
    obtain ⟨hc, htarget⟩ := hwf
    refine .read hc hbounds ?_
    split
    · exact (State.RaisesOnly.jumpTo htarget hrun).mono hmono
    · exact .advance hrun
  case callIf c target =>
    obtain ⟨hc, htarget⟩ := hwf
    refine .read hc hbounds ?_
    split
    · exact (State.RaisesOnly.callTo htarget hrun).mono hmono
    · exact .advance hrun
  case ret => exact .pop (.inl rfl) fun _ _ => .of_running hrun
  case push r => exact .read hwf hbounds (.advance hrun)
  case pop r => exact .pop (.inr ⟨r, rfl⟩) fun v rest =>
    State.RaisesOnly.wrAdvance (s := { s with stack := rest }) hwf hbounds hrun v
  case halt =>
    rintro _ ⟨⟩

/-- Settles O44: `MayRaise` is the statement's conclusion. -/
theorem instructionsRaiseOnlyTheirErrors : Obligations.InstructionsRaiseOnlyTheirErrors :=
  fun _ _ _ k hwf hrun hex hk => exec_raisesOnly hwf hrun hex k hk

end Sys2Proof.Machine

/-! PROOFS. Noninterference (spec/20_memory.md section 1): an update of fields that no instruction looks at commutes with every
operation, so with the step. `input` and the contents of `output` are such fields. -/

namespace Sys2Proof.Machine

/-- `F` changes nothing an instruction reads and commutes with every update an instruction makes. -/
structure Transparent (F : State → State) : Prop where
  regs : ∀ s, (F s).regs = s.regs
  stack : ∀ s, (F s).stack = s.stack
  runState : ∀ s, (F s).runState = s.runState
  program : ∀ s, (F s).program = s.program
  allocNext : ∀ s, (F s).allocNext = s.allocNext
  map_setReg : ∀ s i v, F (s.setReg i v) = (F s).setReg i v
  map_withStack : ∀ s st, F { s with stack := st } = { F s with stack := st }
  map_withRunState : ∀ s r, F { s with runState := r } = { F s with runState := r }
  map_withProgram : ∀ s g, F { s with program := g } = { F s with program := g }
  map_withAllocNext : ∀ s n, F { s with allocNext := n } = { F s with allocNext := n }
  map_materialize : ∀ s, F s.materialize = (F s).materialize

/-- Replacing `input`, which no operation names. -/
theorem transparent_withInput (inp : Option Grid) : Transparent fun s => { s with input := inp } where
  regs _ := rfl
  stack _ := rfl
  runState _ := rfl
  program _ := rfl
  allocNext _ := rfl
  map_setReg _ _ _ := rfl
  map_withStack _ _ := rfl
  map_withRunState _ _ := rfl
  map_withProgram _ _ := rfl
  map_withAllocNext _ _ := rfl
  map_materialize s := by simp only [State.materialize_eq]

/-- Putting a grid in the place of `output`: materialization leaves a present `output` as it is, and is overwritten otherwise. -/
theorem transparent_withOutput (h : Grid) : Transparent fun s => { s with output := some h } where
  regs _ := rfl
  stack _ := rfl
  runState _ := rfl
  program _ := rfl
  allocNext _ := rfl
  map_setReg _ _ _ := rfl
  map_withStack _ _ := rfl
  map_withRunState _ _ := rfl
  map_withProgram _ _ := rfl
  map_withAllocNext _ _ := rfl
  map_materialize s := by simp only [State.materialize_eq, Option.getD_some]

theorem State.reserving_eq (s : State) (n : Nat) :
    s.reserving n = { s.materialize with allocNext := s.allocNext + n } := by
  rw [State.materialize_eq]
  rfl

namespace Transparent

variable {F : State → State} (hF : Transparent F) (s : State)
include hF

/-! ### What is read -/

theorem reg (i : Nat) : (F s).reg i = s.reg i := State.reg_congr (hF.regs s) i

theorem ip : (F s).ip = s.ip := State.ip_congr (hF.regs s)

theorem readReg (i : Nat) : (F s).readReg i = s.readReg i := by
  rw [State.readReg, State.readReg, hF.reg]

theorem rd (o : Operand) : (F s).rd o = s.rd o := by
  simp only [State.rd, State.memRead1, hF.readReg, hF.program]

theorem target (o : Operand) : (F s).target o = s.target o := by
  simp only [State.target, hF.rd, hF.program]

theorem returnAddress : (F s).returnAddress = s.returnAddress := by
  simp only [State.returnAddress, hF.program, hF.ip]

theorem allocBase : (F s).allocBase = s.allocBase := by
  simp only [State.allocBase, hF.program, hF.allocNext]

/-! ### What is written -/

theorem map_raise (k : ErrorKind) : F (s.raise k) = (F s).raise k := hF.map_withRunState s _

theorem map_halt : F s.halt = (F s).halt := hF.map_withRunState s _

theorem map_push (v : Word) : F (s.push v) = (F s).push v := by
  rw [State.push, State.push, hF.map_withStack, hF.stack]

theorem map_advance : F s.advance = (F s).advance := by
  have hnext : nextPos (F s).program.width (F s).ip = nextPos s.program.width s.ip := by rw [hF.program, hF.ip]
  rcases s.advance_cases with ⟨hrep, e⟩ | ⟨hrep, e⟩
  · rw [e, hF.map_setReg, State.advance_of_representable hnext hrep]
  · rw [e, hF.map_halt, State.advance_of_not_representable hnext hrep]

/-- Going on after an operation that answers no state. -/
theorem map_orRaise {α : Type} (r : Except ErrorKind α) {f g : α → State} (h : ∀ a, F (f a) = g a) :
    F (s.orRaise r f) = (F s).orRaise r g := by
  cases r with
  | ok a => exact h a
  | error e => exact hF.map_raise s e

theorem memWrite1_map (a v : Word) : (F s).memWrite1 a v = (s.memWrite1 a v).map F := by
  cases hb : s.program.inBounds (toAddress a) with
  | true =>
    have hb' : (F s).program.inBounds (toAddress a) = true := by rw [hF.program, hb]
    rw [State.memWrite1_of_inBounds v hb, State.memWrite1_of_inBounds v hb', hF.program]
    exact congrArg Except.ok (hF.map_withProgram s _).symm
  | false =>
    have hb' : (F s).program.inBounds (toAddress a) = false := by rw [hF.program, hb]
    rw [State.memWrite1_of_not_inBounds v hb, State.memWrite1_of_not_inBounds v hb', Except.map]

theorem wr_map (o : Operand) (v : Word) : (F s).wr o v = (s.wr o v).map F := by
  obtain ⟨deref, i⟩ := o
  by_cases hi : i ≤ 31
  · cases deref with
    | false => simp [State.wr, State.writeReg, hi, Except.map, hF.map_setReg]
    | true => simp [State.wr, State.readReg, hi, hF.reg, hF.memWrite1_map]
  · cases deref <;> simp [State.wr, State.writeReg, State.readReg, hi, Except.map]

theorem map_wrAdvance (o : Operand) (v : Word) : F (s.wrAdvance o v) = (F s).wrAdvance o v := by
  rw [State.wrAdvance, State.wrAdvance, hF.wr_map]
  cases s.wr o v with
  | ok t => exact hF.map_advance t
  | error e => exact hF.map_raise s e

/-- Going on after a pop, which answers the state without its top. -/
theorem map_orRaise_pop {f g : Word × State → State} (h : ∀ v t, F (f (v, t)) = g (v, F t)) :
    F (s.orRaise s.pop f) = (F s).orRaise (F s).pop g := by
  rcases s.pop_cases with ⟨hs, e⟩ | ⟨v, rest, hs, e⟩
  · have hs' : (F s).stack = [] := (hF.stack s).trans hs
    rw [e, State.orRaise_error, State.orRaise_pop_of_empty hs', hF.map_raise]
  · have hs' : (F s).stack = v :: rest := (hF.stack s).trans hs
    rw [e, State.orRaise_ok, State.pop_of_cons hs', State.orRaise_ok, h, hF.map_withStack]

theorem map_alu (f : Word → Word → Except ErrorKind Word) (dst a b : Operand) :
    F (s.alu f dst a b) = (F s).alu f dst a b := by
  rw [State.alu, State.alu, hF.rd, hF.rd]
  exact hF.map_orRaise s _ fun _ => hF.map_orRaise s _ fun _ => hF.map_orRaise s _ fun v => hF.map_wrAdvance s dst v

theorem map_jumpTo (o : Operand) : F (s.jumpTo o) = (F s).jumpTo o := by
  rw [State.jumpTo, State.jumpTo, hF.target]
  exact hF.map_orRaise s _ fun w => hF.map_setReg s 31 w

theorem map_callTo (o : Operand) : F (s.callTo o) = (F s).callTo o := by
  rw [State.callTo, State.callTo, hF.target, hF.returnAddress]
  refine hF.map_orRaise s _ fun w => hF.map_orRaise s _ fun r => ?_
  rw [State.redirect_eq, State.redirect_eq, hF.map_setReg, hF.map_push]

theorem map_reserving (n : Nat) : F (s.reserving n) = (F s).reserving n := by
  rw [State.reserving_eq, State.reserving_eq, hF.map_withAllocNext, hF.map_materialize, hF.allocNext]

theorem map_allocate (n : Nat) (dst : Operand) : F (s.allocate n dst) = (F s).allocate n dst := by
  by_cases hfit : s.allocNext + n ≤ s.program.width * s.program.height
  · have hfit' : (F s).allocNext + n ≤ (F s).program.width * (F s).program.height := by rwa [hF.allocNext, hF.program]
    rw [State.allocate_of_fits dst hfit, State.allocate_of_fits dst hfit', hF.map_wrAdvance, hF.map_reserving, hF.allocBase]
  · have hfull := Nat.lt_of_not_le hfit
    have hfull' : (F s).program.width * (F s).program.height < (F s).allocNext + n := by rwa [hF.allocNext, hF.program]
    rw [State.allocate_of_not_fits dst hfull, State.allocate_of_not_fits dst hfull', hF.map_raise, hF.map_materialize]

theorem map_copyAdvance (dst src : Coord) (n : Nat) : F (s.copyAdvance dst src n) = (F s).copyAdvance dst src n := by
  unfold State.copyAdvance
  rw [hF.program]
  rcases copyWords n src dst s.program with ⟨g, _ | e⟩
  · exact (hF.map_advance _).trans (congrArg State.advance (hF.map_withProgram s g))
  · exact (hF.map_raise _ e).trans (congrArg (State.raise · e) (hF.map_withProgram s g))

/-! ### Instructions and steps -/

/-- The instruction after the update is the instruction, then the update. -/
theorem exec_map (i : Instr) : exec i (F s) = mapNext F (exec i s) := by
  cases i with
  | loadLow r imm =>
    rw [exec_loadLow, exec_loadLow, hF.rd]
    exact congrArg _ (hF.map_orRaise s _ fun _ => hF.map_wrAdvance s r _).symm
  | loadHigh r imm =>
    rw [exec_loadHigh, exec_loadHigh, hF.rd]
    exact congrArg _ (hF.map_orRaise s _ fun _ => hF.map_wrAdvance s r _).symm
  | move dst src =>
    rw [exec_move, exec_move, hF.rd]
    exact congrArg _ (hF.map_orRaise s _ fun _ => hF.map_wrAdvance s dst _).symm
  | add dst a b => exact congrArg _ (hF.map_alu s _ dst a b).symm
  | subtract dst a b => exact congrArg _ (hF.map_alu s _ dst a b).symm
  | multiply dst a b => exact congrArg _ (hF.map_alu s _ dst a b).symm
  | divide dst a b => exact congrArg _ (hF.map_alu s _ dst a b).symm
  | modulo dst a b => exact congrArg _ (hF.map_alu s _ dst a b).symm
  | bitAnd dst a b => exact congrArg _ (hF.map_alu s _ dst a b).symm
  | bitOr dst a b => exact congrArg _ (hF.map_alu s _ dst a b).symm
  | equal dst a b => exact congrArg _ (hF.map_alu s _ dst a b).symm
  | notEqual dst a b => exact congrArg _ (hF.map_alu s _ dst a b).symm
  | greaterThan dst a b => exact congrArg _ (hF.map_alu s _ dst a b).symm
  | lessThan dst a b => exact congrArg _ (hF.map_alu s _ dst a b).symm
  | greaterThanEqual dst a b => exact congrArg _ (hF.map_alu s _ dst a b).symm
  | lessThanEqual dst a b => exact congrArg _ (hF.map_alu s _ dst a b).symm
  | alloc size dst =>
    rw [exec_alloc, exec_alloc, hF.rd]
    exact congrArg _ (hF.map_orRaise s _ fun n => hF.map_allocate s _ dst).symm
  | memCopy dst src len =>
    rw [exec_memCopy, exec_memCopy, hF.rd, hF.rd, hF.rd]
    exact congrArg _ (hF.map_orRaise s _ fun _ => hF.map_orRaise s _ fun _ => hF.map_orRaise s _ fun _ =>
      hF.map_copyAdvance s _ _ _).symm
  | currAddress dst =>
    rw [exec_currAddress, exec_currAddress, hF.reg]
    exact congrArg _ (hF.map_wrAdvance s dst _).symm
  | jump target => exact congrArg _ (hF.map_jumpTo s target).symm
  | call target => exact congrArg _ (hF.map_callTo s target).symm
  | jumpIf c target =>
    rw [exec_jumpIf, exec_jumpIf, hF.rd]
    refine congrArg _ (hF.map_orRaise s _ fun w => ?_).symm
    rw [apply_ite F, hF.map_jumpTo, hF.map_advance]
  | callIf c target =>
    rw [exec_callIf, exec_callIf, hF.rd]
    refine congrArg _ (hF.map_orRaise s _ fun w => ?_).symm
    rw [apply_ite F, hF.map_callTo, hF.map_advance]
  | ret => exact congrArg _ (hF.map_orRaise_pop s fun v t => hF.map_setReg t 31 v).symm
  | push r =>
    rw [exec_push, exec_push, hF.rd]
    refine congrArg _ (hF.map_orRaise s _ fun v => ?_).symm
    rw [hF.map_advance, hF.map_push]
  | pop r => exact congrArg _ (hF.map_orRaise_pop s fun v t => hF.map_wrAdvance t r v).symm
  | halt => exact congrArg _ (hF.map_halt s).symm

/-- The step after the update is the step, then the update. -/
theorem step_map : step (F s) = mapNext F (step s) := by
  rcases step_cases s with ⟨hr, e⟩ | ⟨k, hr, e⟩ | ⟨hr, hb, e⟩ | ⟨hr, hb, e⟩ <;> rw [← hF.runState] at hr <;> rw [e]
  · exact step_of_halted hr
  · exact step_of_faulted hr
  · rw [← hF.program, ← hF.ip] at hb
    rw [step_of_not_inBounds hr hb, mapNext, hF.map_halt]
  · rw [← hF.program, ← hF.ip] at hb
    rw [step_of_inBounds hr hb, hF.exec_map, hF.program, hF.ip]

end Transparent

/-- Settles O54: replacing `input` is transparent. -/
theorem inputHasNoEffect : Obligations.InputHasNoEffect :=
  fun s inp => (transparent_withInput inp).step_map s

/-- Settles O55: putting another grid in the place of `output` is transparent. -/
theorem outputContentsHaveNoEffect : Obligations.OutputContentsHaveNoEffect :=
  fun s _ h _ => (transparent_withOutput h).step_map s

end Sys2Proof.Machine

/-! PROOFS. MemCopy (spec/44_memory_ops.md R191; D17): what its loop does to the Words of `program`, when it completes, and which
bytes it can reach. -/

namespace Sys2Proof.Machine

/-! ### The copy on raster indices -/

/-- `n` Words copied one at a time in ascending order, from raster index `i` to raster index `j`. -/
def copyCells (m : Memory) (i j : Nat) : Nat → Memory
  | 0 => m
  | n + 1 => writeWordAt (copyCells m i j n) (j + n) (readWordAt (copyCells m i j n) (i + n))

/-- Copying one Word and then `n` from the next indices is copying `n + 1`. -/
theorem copyCells_succ_first (m : Memory) (i j n : Nat) :
    copyCells (writeWordAt m j (readWordAt m i)) (i + 1) (j + 1) n = copyCells m i j (n + 1) := by
  induction n with
  | zero => rfl
  | succ n ih =>
    have hi : i + 1 + n = i + (n + 1) := by omega
    have hj : j + 1 + n = j + (n + 1) := by omega
    rw [copyCells, ih, hi, hj]
    rfl

/-- The loop of MemCopy inside the grid is the copy on raster indices: a raster successor is the next index. -/
theorem copyWords_of_fits {n : Nat} {src dst : Coord} {g : Grid} (hs : src.x < g.width) (hd : dst.x < g.width)
    (hsn : g.index src + n ≤ g.width * g.height) (hdn : g.index dst + n ≤ g.width * g.height) :
    copyWords n src dst g = ({ g with cells := copyCells g.cells (g.index src) (g.index dst) n }, none) := by
  induction n generalizing src dst g with
  | zero => rfl
  | succ n ih =>
    have hsrc : g.inBounds src = true := (Grid.inBounds_iff_index hs).mpr (by omega)
    have hdst : g.inBounds dst = true := (Grid.inBounds_iff_index hd).mpr (by omega)
    have hget : g.get src = .ok (g.cell src) := by simp [Grid.get, hsrc]
    have hset : g.set dst (g.cell src) = .ok (g.setCell dst (g.cell src)) := by simp [Grid.set, hdst]
    have hsnext := g.index_nextPos src
    have hdnext := g.index_nextPos dst
    have hrest := ih (g := g.setCell dst (g.cell src)) (nextPos_x_lt hs) (nextPos_x_lt hd)
      (by simp only [Grid.index_setCell, Grid.setCell_width, Grid.setCell_height]; omega)
      (by simp only [Grid.index_setCell, Grid.setCell_width, Grid.setCell_height]; omega)
    simp only [Grid.setCell_width, Grid.index_setCell, hsnext, hdnext] at hrest
    simp only [copyWords, hget, hset]
    rw [hrest, ← copyCells_succ_first]
    rfl

/-! ### Its Words and its bytes -/

/-- Bytes outside the destination range are not written. -/
theorem memRead_copyCells {m : Memory} {i j n a : Nat} (h : a / 3 < j ∨ j + n ≤ a / 3) :
    memRead (copyCells m i j n) a = memRead m a := by
  induction n with
  | zero => rfl
  | succ n ih => rw [copyCells, memRead_writeWordAt_ne _ _ (by omega), ih (by omega)]

/-- Words outside the destination range are not written. -/
theorem readWordAt_copyCells {m : Memory} {i j n a : Nat} (h : a < j ∨ j + n ≤ a) :
    readWordAt (copyCells m i j n) a = readWordAt m a := by
  unfold readWordAt
  rw [memRead_copyCells (by omega), memRead_copyCells (by omega), memRead_copyCells (by omega)]

/-- The source index of the `k`-th Word: itself, or, where the destination starts inside the reach of the copy, folded back into
the cells before the destination. -/
def copySource (i j k : Nat) : Nat := i + if i < j then k % (j - i) else k

/-- The `k`-th Word the copy stores is read from a cell it has not written, or from one that holds an earlier Word of it. -/
theorem readWordAt_copyCells_source (m : Memory) (i j n : Nat)
    (ih : ∀ k, k < n → readWordAt (copyCells m i j n) (j + k) = readWordAt m (copySource i j k)) :
    readWordAt (copyCells m i j n) (i + n) = readWordAt m (copySource i j n) := by
  unfold copySource at *
  by_cases hij : i < j
  · simp only [hij, if_true] at ih ⊢
    by_cases hn : n < j - i
    · rw [readWordAt_copyCells (by omega), Nat.mod_eq_of_lt hn]
    · have hback : i + n = j + (n - (j - i)) := by omega
      rw [hback, ih _ (by omega), ← Nat.mod_eq_sub_mod (Nat.le_of_not_lt hn)]
  · simp only [hij, if_false]
    rw [readWordAt_copyCells (by omega)]

/-- The Words of the destination range after the copy. -/
theorem readWordAt_copyCells_dst {m : Memory} {i j n k : Nat} (hk : k < n) :
    readWordAt (copyCells m i j n) (j + k) = readWordAt m (copySource i j k) := by
  induction n generalizing k with
  | zero => omega
  | succ n ih =>
    rcases Nat.lt_succ_iff_lt_or_eq.mp hk with hlt | rfl
    · rw [copyCells, readWordAt_writeWordAt_ne _ _ (by omega), ih hlt]
    · rw [copyCells, readWordAt_writeWordAt_self, readWordAt_copyCells_source m i j k fun _ => ih]

/-- The loop, completed or not, writes no byte outside its destination range, in bounds or not. -/
theorem memRead_copyWords {n : Nat} {src dst : Coord} {g : Grid} {a : Nat}
    (h : a / 3 < g.index dst ∨ g.index dst + n ≤ a / 3) :
    memRead (copyWords n src dst g).1.cells a = memRead g.cells a := by
  induction n generalizing src dst g with
  | zero => rfl
  | succ n ih =>
    rcases g.get_cases src with ⟨_, hs⟩ | ⟨_, hs⟩
    · rcases g.set_cases dst (g.cell src) with ⟨_, hd⟩ | ⟨_, hd⟩
      · have hnext := g.index_nextPos dst
        simp only [copyWords, hs, hd]
        rw [ih (by simp only [Grid.index_setCell]; omega)]
        exact memRead_writeWordAt_ne _ _ (by omega)
      · simp only [copyWords, hs, hd]
    · simp only [copyWords, hs]

/-- A loop of at least one Word that ends without error stayed inside the grid on both sides. -/
theorem fits_of_copyWords_none {n : Nat} {src dst : Coord} {g : Grid} (hn : 0 < n)
    (h : (copyWords n src dst g).2 = none) :
    g.inBounds src = true ∧ g.inBounds dst = true ∧ g.index src + n ≤ g.width * g.height ∧
      g.index dst + n ≤ g.width * g.height := by
  induction n generalizing src dst g with
  | zero => omega
  | succ n ih =>
    rcases g.get_cases src with ⟨hsrc, hs⟩ | ⟨_, hs⟩
    · rcases g.set_cases dst (g.cell src) with ⟨hdst, hd⟩ | ⟨_, hd⟩
      · have hslt := Grid.index_lt hsrc
        have hdlt := Grid.index_lt hdst
        refine ⟨hsrc, hdst, ?_⟩
        rcases Nat.eq_zero_or_pos n with rfl | hpos
        · omega
        · simp only [copyWords, hs, hd] at h
          obtain ⟨-, -, hsn, hdn⟩ := ih hpos h
          simp only [Grid.index_setCell, Grid.setCell_width, Grid.setCell_height, Grid.index_nextPos] at hsn hdn
          omega
      · simp [copyWords, hs, hd] at h
    · simp [copyWords, hs] at h

/-! ### The instruction -/

section MemCopy

variable {s : State} {dst src len : Operand} (hdst : s.resolves dst = true) (hsrc : s.resolves src = true)
  (hlen : s.resolves len = true)
include hdst hsrc hlen

/-- With its operands resolved MemCopy is its loop on their Words. -/
theorem exec_memCopy_of_resolves :
    exec (.memCopy dst src len) s =
      .next (s.copyAdvance (toAddress (s.valueOf dst)) (toAddress (s.valueOf src)) (s.valueOf len).toNat) := by
  rw [exec_memCopy, State.orRaise_rd_of_resolves hdst, State.orRaise_rd_of_resolves hsrc, State.orRaise_rd_of_resolves hlen]

end MemCopy

section CopyAdvance

variable {s : State} {dst src : Coord} {n : Nat} {g : Grid}

theorem State.copyAdvance_of_none (h : copyWords n src dst s.program = (g, none)) :
    s.copyAdvance dst src n = State.advance { s with program := g } := by
  unfold State.copyAdvance
  rw [h]

theorem State.copyAdvance_of_some {e : ErrorKind} (h : copyWords n src dst s.program = (g, some e)) :
    s.copyAdvance dst src n = State.raise { s with program := g } e := by
  unfold State.copyAdvance
  rw [h]

end CopyAdvance

/-- Settles O30: inside the grid the loop is `copyCells`, whose Words and bytes are known. -/
theorem memCopyCopiesForward : Obligations.MemCopyCopiesForward := by
  intro s dst src len hdst hsrc hlen hsin hdin hsn hdn
  obtain ⟨hsx, -⟩ := (s.program.inBounds_iff _).mp hsin
  obtain ⟨hdx, -⟩ := (s.program.inBounds_iff _).mp hdin
  have hexec := exec_memCopy_of_resolves hdst hsrc hlen
  rw [State.copyAdvance_of_none (copyWords_of_fits hsx hdx hsn hdn)] at hexec
  exact ⟨_, hexec, rfl, rfl, fun k hk => readWordAt_copyCells_dst hk, fun n hn => memRead_copyCells hn⟩

/-- Settles O31: the loop of no Words makes no access. -/
theorem memCopyOfNoWordsOnlyAdvances : Obligations.MemCopyOfNoWordsOnlyAdvances := by
  intro s dst src len hdst hsrc hlen h0
  rw [exec_memCopy_of_resolves hdst hsrc hlen, h0]
  rfl

/-- Settles O32: a loop that ended without error would have stayed inside the grid. -/
theorem memCopyPastTheGridFaults : Obligations.MemCopyPastTheGridFaults := by
  intro s dst src len hdst hsrc hlen hne hout
  obtain ⟨hw, hh, herr⟩ :=
    copyWords_dims (s.valueOf len).toNat (toAddress (s.valueOf src)) (toAddress (s.valueOf dst)) s.program
  have hsome : (copyWords (s.valueOf len).toNat (toAddress (s.valueOf src)) (toAddress (s.valueOf dst)) s.program).2 =
      some .addressOutOfBounds := by
    refine herr.resolve_left fun hnone => ?_
    obtain ⟨hsin, hdin, hsn, hdn⟩ := fits_of_copyWords_none (toNat_pos_of_ne_zero hne) hnone
    rw [hsin, hdin] at hout
    simp only [Bool.true_eq_false, false_or] at hout
    omega
  refine ⟨_, hw, hh, ?_⟩
  rw [exec_memCopy_of_resolves hdst hsrc hlen, State.copyAdvance_of_some (Prod.ext rfl hsome)]
  rfl

/-- Settles O51: an operand that does not resolve leaves `program` as it is, and the loop writes its range alone. -/
theorem memCopyStoresOnlyItsRange : Obligations.MemCopyStoresOnlyItsRange := by
  intro s t dst src len hex n hn
  cases exec_effect hex with
  | copied _ _ _ hi =>
    cases hi
    rw [State.programByte, State.copyAdvance_program]
    exact memRead_copyWords hn
  | raised => rfl
  | wrote _ _ _ hdest => cases hdest
  | writeRaised _ _ _ hdest => cases hdest
  | notTaken _ _ hi => rcases hi with hi | hi <;> cases hi
  | jumped _ _ hi => rcases hi with hi | hi <;> cases hi
  | called _ _ _ hi => rcases hi with hi | hi <;> cases hi
  | noRoom _ _ hi => cases hi
  | pushed _ hi => cases hi
  | returned _ _ hi => cases hi
  | halted hi => cases hi

end Sys2Proof.Machine

/-! PROOFS. The state at reset and at launch (spec/10_state.md section 10; spec/70_reset_and_hazards.md; spec/20_memory.md R69). -/

namespace Sys2Proof.Machine

/-! ### Reset -/

/-- Every register is zero at reset, and an index that names none reads as zero. -/
@[simp] theorem State.reg_reset (i : Nat) : State.reset.reg i = 0#24 := by
  simp only [State.reg, State.reset, Vector.getElem?_replicate]
  split <;> rfl

theorem State.ip_reset : State.reset.ip = ⟨0, 0⟩ := by
  rw [State.ip, State.pc, State.reg_reset]
  rfl

/-- Settles O6: the registers by `reg_reset`, the other fields as `State.reset` gives them. -/
theorem resetValuesOfTheCore : Obligations.ResetValuesOfTheCore :=
  ⟨State.reg_reset, State.ip_reset, rfl, rfl, rfl, rfl⟩

/-- A grid with nothing listed is well formed within the greatest dimensions. -/
theorem Grid.wf_zero {w h : Nat} (hw1 : 1 ≤ w) (hw : w ≤ 4096) (hh1 : 1 ≤ h) (hh : h ≤ 4096) :
    (Grid.zero w h).wf = true :=
  (Grid.wf_iff _).mpr ⟨hw1, hw, hh1, hh, rfl, nofun⟩

/-- Settles O7: an empty grid of 4096 by 4096, no `input`, no `output`. -/
theorem resetMeetsTheInvariant : Obligations.ResetMeetsTheInvariant :=
  State.reset.wf_iff.mpr
    ⟨Grid.wf_zero (by decide) (by decide) (by decide) (by decide), nofun, .inl ⟨rfl, rfl⟩⟩

/-! ### The grid of a buffer -/

/-- Words before the first index filled stay. -/
theorem readWordAt_fillWords_of_lt (ws : List Word) {m : Memory} {i j : Nat} (h : j < i) :
    readWordAt (fillWords m i ws) j = readWordAt m j := by
  induction ws generalizing m i with
  | nil => rfl
  | cons w ws ih => rw [fillWords, ih (by omega), readWordAt_writeWordAt_ne _ _ (by omega)]

/-- The `k`-th Word of the list stands `k` cells after the first index filled. -/
theorem readWordAt_fillWords {ws : List Word} {m : Memory} {i k : Nat} (h : k < ws.length) :
    readWordAt (fillWords m i ws) (i + k) = ws[k] := by
  induction ws generalizing m i k with
  | nil => cases h
  | cons w ws ih =>
    cases k with
    | zero => rw [fillWords, readWordAt_fillWords_of_lt ws (by omega)]; exact readWordAt_writeWordAt_self m i w
    | succ k =>
      have hindex : i + (k + 1) = i + 1 + k := by omega
      rw [fillWords, hindex, ih (Nat.lt_of_succ_lt_succ h), List.getElem_cons_succ]

/-- Filling lists bytes of the cells filled only. -/
theorem mem_fillWords {ws : List Word} {m : Memory} {i : Nat} {c : Host.Cell} (h : c ∈ fillWords m i ws) :
    c ∈ m ∨ c.1 / 3 < i + ws.length := by
  induction ws generalizing m i with
  | nil => exact .inl h
  | cons w ws ih =>
    rw [List.length_cons]
    rcases ih h with hmem | hlt
    · rcases mem_writeWordAt hmem with hcell | hmem
      · exact .inr (by omega)
      · exact .inl hmem
    · exact .inr (by omega)

/-- What the host must supply (R69, R264): dimensions 1..4096 and one Word for each cell. -/
def Buffer.Valid (b : Buffer) : Prop :=
  1 ≤ b.width ∧ b.width ≤ 4096 ∧ 1 ≤ b.height ∧ b.height ≤ 4096 ∧ b.words.length = b.width * b.height

namespace Buffer

variable {b : Buffer}

theorem oversized_iff : b.oversized = true ↔ 4096 < b.width ∨ 4096 < b.height := by
  simp [Buffer.oversized, Config.maxDim]

theorem nonzero_iff : b.nonzero = true ↔ 1 ≤ b.width ∧ 1 ≤ b.height := by
  simp [Buffer.nonzero]

theorem total_iff : b.total = true ↔ b.words.length = b.width * b.height := by
  simp [Buffer.total]

/-- The three checks of the launch together are validity. -/
theorem valid_iff : b.Valid ↔ b.oversized = false ∧ b.nonzero = true ∧ b.total = true := by
  rw [← Bool.not_eq_true, oversized_iff, nonzero_iff, total_iff]
  unfold Buffer.Valid
  omega

theorem Valid.grid_wf (h : b.Valid) : b.grid.wf = true := by
  obtain ⟨hw1, hw, hh1, hh, hlen⟩ := h
  refine (Grid.wf_iff _).mpr ⟨hw1, hw, hh1, hh, fillWords_wf _ _ rfl, fun c hc => ?_⟩
  show c.1 < 3 * (b.width * b.height)
  rcases mem_fillWords hc with hmem | hlt
  · cases hmem
  · omega

/-- Word `y*W + x` of the buffer is the cell at (x, y). -/
theorem Valid.getElem?_words (h : b.Valid) {x y : Nat} (hx : x < b.width) (hy : y < b.height) :
    b.words[y * b.width + x]? = some (b.grid.cell ⟨x, y⟩) := by
  obtain ⟨-, -, -, -, hlen⟩ := h
  have hindex : b.grid.index ⟨x, y⟩ < b.width * b.height := Grid.index_lt ((Grid.inBounds_iff _ _).mpr ⟨hx, hy⟩)
  have hlt : y * b.width + x < b.words.length := hlen ▸ hindex
  have hread := readWordAt_fillWords (m := []) (i := 0) hlt
  rw [Nat.zero_add] at hread
  rw [List.getElem?_eq_getElem hlt, ← hread]
  rfl

/-- The host gets back the buffer it supplied. -/
theorem Valid.buffer_grid (h : b.Valid) : b.grid.buffer = b := by
  obtain ⟨-, -, -, -, hlen⟩ := h
  have hwords : (List.range (b.width * b.height)).map (readWordAt (fillWords [] 0 b.words)) = b.words := by
    refine List.ext_getElem (by simp [hlen]) fun k _ hk => ?_
    have hread := readWordAt_fillWords (m := []) (i := 0) hk
    rw [Nat.zero_add] at hread
    rw [List.getElem_map, List.getElem_range, hread]
  exact congrArg (Buffer.mk b.width b.height) hwords

end Buffer

/-! ### The launch -/

/-- The buffers the launch checks: `program`, and `input` when there is one. -/
theorem mem_supplied {p b : Buffer} {inp : Option Buffer} : b ∈ p :: inp.toList ↔ b = p ∨ inp = some b := by
  rw [List.mem_cons, Option.mem_toList]

/-- What a launch can answer: OversizedImage for an oversized buffer; another error when none is oversized and one is not valid;
the reset state of the buffers when all are valid. -/
theorem launch_cases (p : Buffer) (inp : Option Buffer) :
    ((∃ b, (b = p ∨ inp = some b) ∧ b.oversized = true) ∧ launch p inp = .error (.fatal .oversizedImage)) ∨
    ((∀ b, (b = p ∨ inp = some b) → b.oversized = false) ∧ (∃ b, (b = p ∨ inp = some b) ∧ ¬ b.Valid) ∧
      (launch p inp = .error .zeroDimension ∨ launch p inp = .error .wrongLength)) ∨
    ((∀ b, (b = p ∨ inp = some b) → b.Valid) ∧
      launch p inp = .ok { State.reset with program := p.grid, input := inp.map Buffer.grid }) := by
  simp only [← mem_supplied, launch]
  split
  · next hover => exact .inl ⟨by simpa only [List.any_eq_true] using hover, rfl⟩
  · next hover =>
    have hsize : ∀ b ∈ p :: inp.toList, b.oversized = false := by
      simpa only [List.any_eq_true, not_exists, not_and, Bool.not_eq_true] using hover
    right
    split
    · next hzero =>
      obtain ⟨b, hb, hzero⟩ := List.any_eq_true.mp hzero
      refine .inl ⟨hsize, ⟨b, hb, fun hvalid => ?_⟩, .inl rfl⟩
      obtain ⟨-, hnonzero, -⟩ := Buffer.valid_iff.mp hvalid
      simp [hnonzero] at hzero
    · next hzero =>
      split
      · next hlen =>
        obtain ⟨b, hb, hlen⟩ := List.any_eq_true.mp hlen
        refine .inl ⟨hsize, ⟨b, hb, fun hvalid => ?_⟩, .inr rfl⟩
        obtain ⟨-, -, htotal⟩ := Buffer.valid_iff.mp hvalid
        simp [htotal] at hlen
      · next hlen =>
        refine .inr ⟨fun b hb => Buffer.valid_iff.mpr ⟨hsize b hb, ?_, ?_⟩, rfl⟩
        · by_contra hne
          exact hzero (List.any_eq_true.mpr ⟨b, hb, by simpa using hne⟩)
        · by_contra hne
          exact hlen (List.any_eq_true.mpr ⟨b, hb, by simpa using hne⟩)

/-- Settles O10: the three cases of the launch exclude each other, a valid buffer being not oversized. -/
theorem launchRejectsOversizedImages : Obligations.LaunchRejectsOversizedImages := by
  intro p inp
  simp only [← Buffer.oversized_iff]
  show _ ∧ (_ ↔ ∀ b, (b = p ∨ inp = some b) → b.Valid)
  rcases launch_cases p inp with ⟨hover, e⟩ | ⟨hsize, ⟨c, hc, hinvalid⟩, herr⟩ | ⟨hvalid, e⟩
  · refine ⟨iff_of_true e hover, iff_of_false (by simp [e]) fun hvalid => ?_⟩
    obtain ⟨b, hb, hb'⟩ := hover
    obtain ⟨hsize, -⟩ := Buffer.valid_iff.mp (hvalid b hb)
    cases hsize.symm.trans hb'
  · refine ⟨iff_of_false ?_ ?_, iff_of_false ?_ fun hvalid => hinvalid (hvalid c hc)⟩
    · rcases herr with e | e <;> simp [e]
    · rintro ⟨b, hb, hover⟩
      cases (hsize b hb).symm.trans hover
    · rcases herr with e | e <;> simp [e]
  · refine ⟨iff_of_false (by simp [e]) ?_, iff_of_true ⟨_, e⟩ hvalid⟩
    rintro ⟨b, hb, hover⟩
    obtain ⟨hsize, -⟩ := Buffer.valid_iff.mp (hvalid b hb)
    cases hsize.symm.trans hover

/-- A launch that starts had valid buffers and gives the reset state of them. -/
theorem launch_eq_ok {p : Buffer} {inp : Option Buffer} {s : State} (h : launch p inp = .ok s) :
    p.Valid ∧ (∀ b, inp = some b → b.Valid) ∧
      s = { State.reset with program := p.grid, input := inp.map Buffer.grid } := by
  rcases launch_cases p inp with ⟨_, e⟩ | ⟨_, _, e | e⟩ | ⟨hvalid, e⟩
  · cases e.symm.trans h
  · cases e.symm.trans h
  · cases e.symm.trans h
  · exact ⟨hvalid p (.inl rfl), fun b hb => hvalid b (.inr hb), (Except.ok.inj (e.symm.trans h)).symm⟩

/-- Settles O9: the grids of valid buffers are well formed and hold their Words, and the rest is the reset state's. -/
theorem launchGivesTheResetStateOfTheImage : Obligations.LaunchGivesTheResetStateOfTheImage := by
  intro p inp s h
  obtain ⟨hp, hinp, rfl⟩ := launch_eq_ok h
  refine ⟨(State.wf_iff _).mpr ⟨hp.grid_wf, fun g hg => ?_, .inl ⟨rfl, rfl⟩⟩, State.reg_reset, rfl, rfl, rfl, rfl,
    rfl, rfl, hp.buffer_grid, fun x y hx hy => hp.getElem?_words hx hy⟩
  obtain ⟨b, hb, rfl⟩ := Option.map_eq_some_iff.mp hg
  exact (hinp b hb).grid_wf

end Sys2Proof.Machine
